-- ==== Sys2Proof/Word.lean ====
section
/-! DEFINITION. The machine's words (spec/00_scope.md R2): the width of a register, of an instruction and of an
address is 32 bits, and memory is made of 8-bit bytes (spec/20_memory.md R20). -/

namespace Sys2Proof

/-- One byte of memory: 8 bits (R20). -/
abbrev Byte := BitVec 8

/-- A register, the program counter, an address or an instruction word: 32 bits (R2, `XLEN`, `ILEN`). -/
abbrev Word := BitVec 32

/-- The last byte address of RAM, `RAM_LAST` (R2, R20); RAM begins at address 0. -/
def ramLast : Nat := 0x000FFFFF

end Sys2Proof
end

