-- ==== Sys2Proof/Syntax.lean ====
section
/-! DEFINITION. The syntax of the machine: registers (spec/10_state.md R10), the 46 instructions
(spec/30_encoding.md R44 to R52, one constructor per row of spec/opcode_table.json, operands in the order of the
assembler line, R57) and the assembler line itself (R57). Register operands are names and every immediate has exactly
the width of its field (R43), so every term is an instruction some word encodes: no operand can be out of range. -/

namespace Sys2Proof

/-- The eight general purpose registers R1 .. R8 (spec/10_state.md R10). -/
inductive Reg where
  | r1 | r2 | r3 | r4 | r5 | r6 | r7 | r8
deriving DecidableEq, Repr

/-- The number in a register's name: 1 for R1 .. 8 for R8 (R10). -/
def Reg.number : Reg → Nat
  | .r1 => 1 | .r2 => 2 | .r3 => 3 | .r4 => 4 | .r5 => 5 | .r6 => 6 | .r7 => 7 | .r8 => 8

/-- The eight registers in the order of their names (R10). -/
def Reg.all : List Reg := [.r1, .r2, .r3, .r4, .r5, .r6, .r7, .r8]

/-- The 46 mnemonics (spec/30_encoding.md section 4). -/
inductive Mnemonic where
  | jmp | jmpi | jmpc | jmpic
  | stb | sth | stw | stbi | sthi | stwi | ldb | ldh | ldw | ldbi | ldhi | ldwi
  | set | setn
  | setu
  | add | addi | sub | subi | mul | muli | div | divi | mod | modi
  | and | andi | andf | or | ori | orf | xor | xori | xorf
  | bsr | bsri | bsrr | bsrri | bsl | bsli | bslr | bslri
deriving DecidableEq, Repr

/-- A mnemonic as the manual spells it. -/
def Mnemonic.name : Mnemonic → String
  | .jmp => "JMP"
  | .jmpi => "JMPI"
  | .jmpc => "JMPC"
  | .jmpic => "JMPIC"
  | .stb => "STB"
  | .sth => "STH"
  | .stw => "STW"
  | .stbi => "STBI"
  | .sthi => "STHI"
  | .stwi => "STWI"
  | .ldb => "LDB"
  | .ldh => "LDH"
  | .ldw => "LDW"
  | .ldbi => "LDBI"
  | .ldhi => "LDHI"
  | .ldwi => "LDWI"
  | .set => "SET"
  | .setn => "SETN"
  | .setu => "SETU"
  | .add => "ADD"
  | .addi => "ADDI"
  | .sub => "SUB"
  | .subi => "SUBI"
  | .mul => "MUL"
  | .muli => "MULI"
  | .div => "DIV"
  | .divi => "DIVI"
  | .mod => "MOD"
  | .modi => "MODI"
  | .and => "AND"
  | .andi => "ANDI"
  | .andf => "ANDF"
  | .or => "OR"
  | .ori => "ORI"
  | .orf => "ORF"
  | .xor => "XOR"
  | .xori => "XORI"
  | .xorf => "XORF"
  | .bsr => "BSR"
  | .bsri => "BSRI"
  | .bsrr => "BSRR"
  | .bsrri => "BSRRI"
  | .bsl => "BSL"
  | .bsli => "BSLI"
  | .bslr => "BSLR"
  | .bslri => "BSLRI"

/-- Every mnemonic, in the table's order. -/
def Mnemonic.all : List Mnemonic :=
  ([.jmp, .jmpi, .jmpc, .jmpic] : List Mnemonic) ++
  ([.stb, .sth, .stw, .stbi, .sthi, .stwi, .ldb, .ldh, .ldw, .ldbi, .ldhi, .ldwi] : List Mnemonic) ++
  ([.set, .setn] : List Mnemonic) ++
  ([.setu] : List Mnemonic) ++
  ([.add, .addi, .sub, .subi, .mul, .muli, .div, .divi, .mod, .modi] : List Mnemonic) ++
  ([.and, .andi, .andf, .or, .ori, .orf, .xor, .xori, .xorf] : List Mnemonic) ++
  ([.bsr, .bsri, .bsrr, .bsrri, .bsl, .bsli, .bslr, .bslri] : List Mnemonic)

/-- One constructor per row of spec/opcode_table.json. `off` is an offset register, `imm` an immediate field, `ctrl`
the control register of a conditional jump, `amount` the register that holds a shift amount. -/
inductive Instr where
  -- JMP group, 40_jmp.md
  | jmp (base off : Reg)
  | jmpi (base : Reg) (imm : BitVec 21)
  | jmpc (base off ctrl : Reg)
  | jmpic (base : Reg) (imm : BitVec 21) (ctrl : Reg)
  -- ST / LD group, 41_st_ld.md
  | stb (src base off : Reg)
  | sth (src base off : Reg)
  | stw (src base off : Reg)
  | stbi (src base : Reg) (imm : BitVec 19)
  | sthi (src base : Reg) (imm : BitVec 19)
  | stwi (src base : Reg) (imm : BitVec 19)
  | ldb (dest base off : Reg)
  | ldh (dest base off : Reg)
  | ldw (dest base off : Reg)
  | ldbi (dest base : Reg) (imm : BitVec 19)
  | ldhi (dest base : Reg) (imm : BitVec 19)
  | ldwi (dest base : Reg) (imm : BitVec 19)
  -- SET group, 42_set.md
  | set (dest : Reg) (val : BitVec 25)
  | setn (dest : Reg) (val : BitVec 25)
  -- SETU, 43_setu.md
  | setu (dest : Reg) (val : BitVec 6)
  -- arithmetic group, 44_arithmetic.md
  | add (dest src1 src2 : Reg)
  | addi (dest src : Reg) (imm : BitVec 19)
  | sub (dest src1 src2 : Reg)
  | subi (dest src : Reg) (imm : BitVec 19)
  | mul (dest src1 src2 : Reg)
  | muli (dest src : Reg) (imm : BitVec 19)
  | div (dest src1 src2 : Reg)
  | divi (dest src : Reg) (imm : BitVec 19)
  | mod (dest src1 src2 : Reg)
  | modi (dest src : Reg) (imm : BitVec 19)
  -- bitwise group, 45_bitwise.md
  | and (dest src1 src2 : Reg)
  | andi (dest src : Reg) (imm : BitVec 19)
  | andf (dest src : Reg) (imm : BitVec 19)
  | or (dest src1 src2 : Reg)
  | ori (dest src : Reg) (imm : BitVec 19)
  | orf (dest src : Reg) (imm : BitVec 19)
  | xor (dest src1 src2 : Reg)
  | xori (dest src : Reg) (imm : BitVec 19)
  | xorf (dest src : Reg) (imm : BitVec 19)
  -- shift group, 46_shift.md
  | bsr (dest src amount : Reg)
  | bsri (dest src : Reg) (imm : BitVec 5)
  | bsrr (dest src amount : Reg)
  | bsrri (dest src : Reg) (imm : BitVec 5)
  | bsl (dest src amount : Reg)
  | bsli (dest src : Reg) (imm : BitVec 5)
  | bslr (dest src amount : Reg)
  | bslri (dest src : Reg) (imm : BitVec 5)
deriving DecidableEq, Repr

/-- The row of the opcode table an instruction belongs to. -/
def Instr.mnemonic : Instr → Mnemonic
  | .jmp _ _ => .jmp
  | .jmpi _ _ => .jmpi
  | .jmpc _ _ _ => .jmpc
  | .jmpic _ _ _ => .jmpic
  | .stb _ _ _ => .stb
  | .sth _ _ _ => .sth
  | .stw _ _ _ => .stw
  | .stbi _ _ _ => .stbi
  | .sthi _ _ _ => .sthi
  | .stwi _ _ _ => .stwi
  | .ldb _ _ _ => .ldb
  | .ldh _ _ _ => .ldh
  | .ldw _ _ _ => .ldw
  | .ldbi _ _ _ => .ldbi
  | .ldhi _ _ _ => .ldhi
  | .ldwi _ _ _ => .ldwi
  | .set _ _ => .set
  | .setn _ _ => .setn
  | .setu _ _ => .setu
  | .add _ _ _ => .add
  | .addi _ _ _ => .addi
  | .sub _ _ _ => .sub
  | .subi _ _ _ => .subi
  | .mul _ _ _ => .mul
  | .muli _ _ _ => .muli
  | .div _ _ _ => .div
  | .divi _ _ _ => .divi
  | .mod _ _ _ => .mod
  | .modi _ _ _ => .modi
  | .and _ _ _ => .and
  | .andi _ _ _ => .andi
  | .andf _ _ _ => .andf
  | .or _ _ _ => .or
  | .ori _ _ _ => .ori
  | .orf _ _ _ => .orf
  | .xor _ _ _ => .xor
  | .xori _ _ _ => .xori
  | .xorf _ _ _ => .xorf
  | .bsr _ _ _ => .bsr
  | .bsri _ _ _ => .bsri
  | .bsrr _ _ _ => .bsrr
  | .bsrri _ _ _ => .bsrri
  | .bsl _ _ _ => .bsl
  | .bsli _ _ _ => .bsli
  | .bslr _ _ _ => .bslr
  | .bslri _ _ _ => .bslri

/-- An operand of an assembler line (R57): a register by the number in its name, or a number, which is the raw
unsigned value of the instruction's field. -/
inductive AsmOperand where
  | reg (number : Nat)
  | num (value : Nat)
deriving DecidableEq, Repr

/-- An assembler line: a mnemonic followed by its operands (R57). -/
structure AsmLine where
  mnemonic : Mnemonic
  operands : List AsmOperand
deriving DecidableEq, Repr

/-- A register as an operand of an assembler line. -/
def Reg.toAsm (r : Reg) : AsmOperand := .reg r.number

/-- An immediate field as an operand of an assembler line: its raw unsigned value (R57). -/
def immToAsm {n : Nat} (v : BitVec n) : AsmOperand := .num v.toNat

/-- The assembler line of an instruction: its operands in the order its rule's syntax gives (R57). -/
def Instr.toAsm : Instr → AsmLine
  | .jmp base off => ⟨.jmp, [base.toAsm, off.toAsm]⟩
  | .jmpi base imm => ⟨.jmpi, [base.toAsm, immToAsm imm]⟩
  | .jmpc base off ctrl => ⟨.jmpc, [base.toAsm, off.toAsm, ctrl.toAsm]⟩
  | .jmpic base imm ctrl => ⟨.jmpic, [base.toAsm, immToAsm imm, ctrl.toAsm]⟩
  | .stb src base off => ⟨.stb, [src.toAsm, base.toAsm, off.toAsm]⟩
  | .sth src base off => ⟨.sth, [src.toAsm, base.toAsm, off.toAsm]⟩
  | .stw src base off => ⟨.stw, [src.toAsm, base.toAsm, off.toAsm]⟩
  | .stbi src base imm => ⟨.stbi, [src.toAsm, base.toAsm, immToAsm imm]⟩
  | .sthi src base imm => ⟨.sthi, [src.toAsm, base.toAsm, immToAsm imm]⟩
  | .stwi src base imm => ⟨.stwi, [src.toAsm, base.toAsm, immToAsm imm]⟩
  | .ldb dest base off => ⟨.ldb, [dest.toAsm, base.toAsm, off.toAsm]⟩
  | .ldh dest base off => ⟨.ldh, [dest.toAsm, base.toAsm, off.toAsm]⟩
  | .ldw dest base off => ⟨.ldw, [dest.toAsm, base.toAsm, off.toAsm]⟩
  | .ldbi dest base imm => ⟨.ldbi, [dest.toAsm, base.toAsm, immToAsm imm]⟩
  | .ldhi dest base imm => ⟨.ldhi, [dest.toAsm, base.toAsm, immToAsm imm]⟩
  | .ldwi dest base imm => ⟨.ldwi, [dest.toAsm, base.toAsm, immToAsm imm]⟩
  | .set dest val => ⟨.set, [dest.toAsm, immToAsm val]⟩
  | .setn dest val => ⟨.setn, [dest.toAsm, immToAsm val]⟩
  | .setu dest val => ⟨.setu, [dest.toAsm, immToAsm val]⟩
  | .add dest src1 src2 => ⟨.add, [dest.toAsm, src1.toAsm, src2.toAsm]⟩
  | .addi dest src imm => ⟨.addi, [dest.toAsm, src.toAsm, immToAsm imm]⟩
  | .sub dest src1 src2 => ⟨.sub, [dest.toAsm, src1.toAsm, src2.toAsm]⟩
  | .subi dest src imm => ⟨.subi, [dest.toAsm, src.toAsm, immToAsm imm]⟩
  | .mul dest src1 src2 => ⟨.mul, [dest.toAsm, src1.toAsm, src2.toAsm]⟩
  | .muli dest src imm => ⟨.muli, [dest.toAsm, src.toAsm, immToAsm imm]⟩
  | .div dest src1 src2 => ⟨.div, [dest.toAsm, src1.toAsm, src2.toAsm]⟩
  | .divi dest src imm => ⟨.divi, [dest.toAsm, src.toAsm, immToAsm imm]⟩
  | .mod dest src1 src2 => ⟨.mod, [dest.toAsm, src1.toAsm, src2.toAsm]⟩
  | .modi dest src imm => ⟨.modi, [dest.toAsm, src.toAsm, immToAsm imm]⟩
  | .and dest src1 src2 => ⟨.and, [dest.toAsm, src1.toAsm, src2.toAsm]⟩
  | .andi dest src imm => ⟨.andi, [dest.toAsm, src.toAsm, immToAsm imm]⟩
  | .andf dest src imm => ⟨.andf, [dest.toAsm, src.toAsm, immToAsm imm]⟩
  | .or dest src1 src2 => ⟨.or, [dest.toAsm, src1.toAsm, src2.toAsm]⟩
  | .ori dest src imm => ⟨.ori, [dest.toAsm, src.toAsm, immToAsm imm]⟩
  | .orf dest src imm => ⟨.orf, [dest.toAsm, src.toAsm, immToAsm imm]⟩
  | .xor dest src1 src2 => ⟨.xor, [dest.toAsm, src1.toAsm, src2.toAsm]⟩
  | .xori dest src imm => ⟨.xori, [dest.toAsm, src.toAsm, immToAsm imm]⟩
  | .xorf dest src imm => ⟨.xorf, [dest.toAsm, src.toAsm, immToAsm imm]⟩
  | .bsr dest src amount => ⟨.bsr, [dest.toAsm, src.toAsm, amount.toAsm]⟩
  | .bsri dest src imm => ⟨.bsri, [dest.toAsm, src.toAsm, immToAsm imm]⟩
  | .bsrr dest src amount => ⟨.bsrr, [dest.toAsm, src.toAsm, amount.toAsm]⟩
  | .bsrri dest src imm => ⟨.bsrri, [dest.toAsm, src.toAsm, immToAsm imm]⟩
  | .bsl dest src amount => ⟨.bsl, [dest.toAsm, src.toAsm, amount.toAsm]⟩
  | .bsli dest src imm => ⟨.bsli, [dest.toAsm, src.toAsm, immToAsm imm]⟩
  | .bslr dest src amount => ⟨.bslr, [dest.toAsm, src.toAsm, amount.toAsm]⟩
  | .bslri dest src imm => ⟨.bslri, [dest.toAsm, src.toAsm, immToAsm imm]⟩

end Sys2Proof
end

