-- ==== Sys2Proof/Config.lean ====
section
/-! DEFINITION. The implementation parameters of spec/00_scope.md R3, as the fields of one structure: every point the
source leaves open and the spec keeps as a named parameter, with the alternatives the spec names for it
(spec/92_eei_decisions.md). The values this model runs with are in Sys2Proof/Machine/Params.lean. The fourteenth
parameter of R3, `HALT(state)`, is an argument of the run (Sys2Proof/Safety.lean), as the spec leaves it OPEN.
Also here: the values the spec asks a model to assume nothing of, as constants without a body. -/

namespace Sys2Proof

/-- `ADDR_WRAP` (R3, D8). -/
inductive AddrWrap where
  | modulo        -- address sums keep the low 32 bits: the default
  | faultOnCarry  -- D8's other machine, "a chip that faulted on carry-out"
deriving DecidableEq, Repr

/-- `IMM_EXTEND` (R3, D9). -/
inductive ImmExtend where
  | zero  -- every immediate is zero-extended: the default
  | sign  -- the JMP and ST / LD immediates, the two the manual does not settle, are sign-extended
deriving DecidableEq, Repr

/-- `DIV_BY_ZERO` (R3, D16). -/
inductive DivByZero where
  | fault      -- `Fault.DivideByZero`: the default
  | freeValue  -- the result is an uninterpreted total function of the dividend (R155)
deriving DecidableEq, Repr

/-- `DIV_OVERFLOW` (R3, D17). -/
inductive DivOverflow where
  | wrap   -- quotient 0x80000000, remainder 0: the default
  | fault  -- D17's alternative
deriving DecidableEq, Repr

/-- `SHIFT_AMOUNT_MODE` (R3, D18). -/
inductive ShiftAmountMode where
  | mod32       -- the low 5 bits of the register: the default
  | zeroResult  -- D18's alternative: an amount of 32 or more shifts everything out
  | fault       -- D18's alternative: an amount of 32 or more faults
deriving DecidableEq, Repr

/-- The parameters of R3, one field each. -/
structure Config where
  /-- `REG_OF_FIELD(n)` (D1): the register a 3-bit field value names. -/
  regOfField : BitVec 3 → Reg
  /-- The other direction of `REG_OF_FIELD`, for the encoder. -/
  fieldOfReg : Reg → BitVec 3
  /-- `PC_STEP` (D3): what a non-jump instruction adds to the PC. -/
  pcStep : Word
  /-- `ADDR_WRAP` (D8). -/
  addrWrap : AddrWrap
  /-- `IMM_EXTEND` (D9). -/
  immExtend : ImmExtend
  /-- `ILLEGAL_IS_FAULT` (D10): an unused function code is `Fault.IllegalInstruction`; when false it is refused. -/
  illegalIsFault : Bool
  /-- `STRICT_DONT_CARE` (D11): when true a word with an ignored bit set is refused by the decoder (R55). -/
  strictDontCare : Bool
  /-- `JMP_IMM_SCALE` (D12): the factor on the 21-bit immediate of JMPI and JMPIC. -/
  jmpImmScale : Word
  /-- `JMPC_TAKEN_WHEN_NONZERO` (D13). -/
  jmpcTakenWhenNonzero : Bool
  /-- `DIVMOD_SIGNED` (D15). -/
  divmodSigned : Bool
  /-- `DIV_BY_ZERO` (D16). -/
  divByZero : DivByZero
  /-- `DIV_OVERFLOW` (D17). -/
  divOverflow : DivOverflow
  /-- `SHIFT_AMOUNT_MODE` (D18). -/
  shiftAmountMode : ShiftAmountMode
  /-- `RESET_PC` (D23): the PC after reset. -/
  resetPc : Word

/-- The quotient of a division by zero under `DIV_BY_ZERO` = freeValue: "a total function of the dividend that the
model assumes nothing of" (R155). It has no body. -/
opaque Config.quotientByZero : Word → Word

/-- The remainder of a division by zero under `DIV_BY_ZERO` = freeValue (R155). It has no body. -/
opaque Config.remainderByZero : Word → Word

end Sys2Proof
end

