-- ==== Sys2Proof/WellFormed.lean ====
section
/-! DEFINITION. The checks on what enters the model from outside. `Instr` needs none: its register operands are names
and its immediates have their fields' widths (spec/30_encoding.md R43), so every term of `Instr` is an instruction.
Checked here are the three things that can be ill-formed: an assembler line (R57; its operands' kinds, a register's
number, an immediate's range by R43), a setting of the parameters (spec/00_scope.md R3) and a program image the host
would load (spec/70_reset_and_hazards.md R172, R175). -/

namespace Sys2Proof

/-- The register an operand names: R1 .. R8, and nothing else (R10, R57). -/
def AsmOperand.asReg : AsmOperand → Option Reg
  | .reg n => Reg.all.find? (fun r => r.number == n)
  | .num _ => none

/-- The immediate an operand gives: a number that fits the `n`-bit field, unsigned (R43's ranges, R57). -/
def AsmOperand.asImm (n : Nat) : AsmOperand → Option (BitVec n)
  | .num v => if v < 2 ^ n then some (BitVec.ofNat n v) else none
  | .reg _ => none

/-- The instruction an assembler line stands for: the right number of operands, of the right kinds, in the order the
instruction's rule gives (R57), each in range (R43). -/
def AsmLine.toInstr (l : AsmLine) : Option Instr :=
  match l.mnemonic, l.operands with
  | .jmp, [o1, o2] => do return .jmp (← o1.asReg) (← o2.asReg)
  | .jmpi, [o1, o2] => do return .jmpi (← o1.asReg) (← o2.asImm 21)
  | .jmpc, [o1, o2, o3] => do return .jmpc (← o1.asReg) (← o2.asReg) (← o3.asReg)
  | .jmpic, [o1, o2, o3] => do return .jmpic (← o1.asReg) (← o2.asImm 21) (← o3.asReg)
  | .stb, [o1, o2, o3] => do return .stb (← o1.asReg) (← o2.asReg) (← o3.asReg)
  | .sth, [o1, o2, o3] => do return .sth (← o1.asReg) (← o2.asReg) (← o3.asReg)
  | .stw, [o1, o2, o3] => do return .stw (← o1.asReg) (← o2.asReg) (← o3.asReg)
  | .stbi, [o1, o2, o3] => do return .stbi (← o1.asReg) (← o2.asReg) (← o3.asImm 19)
  | .sthi, [o1, o2, o3] => do return .sthi (← o1.asReg) (← o2.asReg) (← o3.asImm 19)
  | .stwi, [o1, o2, o3] => do return .stwi (← o1.asReg) (← o2.asReg) (← o3.asImm 19)
  | .ldb, [o1, o2, o3] => do return .ldb (← o1.asReg) (← o2.asReg) (← o3.asReg)
  | .ldh, [o1, o2, o3] => do return .ldh (← o1.asReg) (← o2.asReg) (← o3.asReg)
  | .ldw, [o1, o2, o3] => do return .ldw (← o1.asReg) (← o2.asReg) (← o3.asReg)
  | .ldbi, [o1, o2, o3] => do return .ldbi (← o1.asReg) (← o2.asReg) (← o3.asImm 19)
  | .ldhi, [o1, o2, o3] => do return .ldhi (← o1.asReg) (← o2.asReg) (← o3.asImm 19)
  | .ldwi, [o1, o2, o3] => do return .ldwi (← o1.asReg) (← o2.asReg) (← o3.asImm 19)
  | .set, [o1, o2] => do return .set (← o1.asReg) (← o2.asImm 25)
  | .setn, [o1, o2] => do return .setn (← o1.asReg) (← o2.asImm 25)
  | .setu, [o1, o2] => do return .setu (← o1.asReg) (← o2.asImm 6)
  | .add, [o1, o2, o3] => do return .add (← o1.asReg) (← o2.asReg) (← o3.asReg)
  | .addi, [o1, o2, o3] => do return .addi (← o1.asReg) (← o2.asReg) (← o3.asImm 19)
  | .sub, [o1, o2, o3] => do return .sub (← o1.asReg) (← o2.asReg) (← o3.asReg)
  | .subi, [o1, o2, o3] => do return .subi (← o1.asReg) (← o2.asReg) (← o3.asImm 19)
  | .mul, [o1, o2, o3] => do return .mul (← o1.asReg) (← o2.asReg) (← o3.asReg)
  | .muli, [o1, o2, o3] => do return .muli (← o1.asReg) (← o2.asReg) (← o3.asImm 19)
  | .div, [o1, o2, o3] => do return .div (← o1.asReg) (← o2.asReg) (← o3.asReg)
  | .divi, [o1, o2, o3] => do return .divi (← o1.asReg) (← o2.asReg) (← o3.asImm 19)
  | .mod, [o1, o2, o3] => do return .mod (← o1.asReg) (← o2.asReg) (← o3.asReg)
  | .modi, [o1, o2, o3] => do return .modi (← o1.asReg) (← o2.asReg) (← o3.asImm 19)
  | .and, [o1, o2, o3] => do return .and (← o1.asReg) (← o2.asReg) (← o3.asReg)
  | .andi, [o1, o2, o3] => do return .andi (← o1.asReg) (← o2.asReg) (← o3.asImm 19)
  | .andf, [o1, o2, o3] => do return .andf (← o1.asReg) (← o2.asReg) (← o3.asImm 19)
  | .or, [o1, o2, o3] => do return .or (← o1.asReg) (← o2.asReg) (← o3.asReg)
  | .ori, [o1, o2, o3] => do return .ori (← o1.asReg) (← o2.asReg) (← o3.asImm 19)
  | .orf, [o1, o2, o3] => do return .orf (← o1.asReg) (← o2.asReg) (← o3.asImm 19)
  | .xor, [o1, o2, o3] => do return .xor (← o1.asReg) (← o2.asReg) (← o3.asReg)
  | .xori, [o1, o2, o3] => do return .xori (← o1.asReg) (← o2.asReg) (← o3.asImm 19)
  | .xorf, [o1, o2, o3] => do return .xorf (← o1.asReg) (← o2.asReg) (← o3.asImm 19)
  | .bsr, [o1, o2, o3] => do return .bsr (← o1.asReg) (← o2.asReg) (← o3.asReg)
  | .bsri, [o1, o2, o3] => do return .bsri (← o1.asReg) (← o2.asReg) (← o3.asImm 5)
  | .bsrr, [o1, o2, o3] => do return .bsrr (← o1.asReg) (← o2.asReg) (← o3.asReg)
  | .bsrri, [o1, o2, o3] => do return .bsrri (← o1.asReg) (← o2.asReg) (← o3.asImm 5)
  | .bsl, [o1, o2, o3] => do return .bsl (← o1.asReg) (← o2.asReg) (← o3.asReg)
  | .bsli, [o1, o2, o3] => do return .bsli (← o1.asReg) (← o2.asReg) (← o3.asImm 5)
  | .bslr, [o1, o2, o3] => do return .bslr (← o1.asReg) (← o2.asReg) (← o3.asReg)
  | .bslri, [o1, o2, o3] => do return .bslri (← o1.asReg) (← o2.asReg) (← o3.asImm 5)
  | _, _ => none

/-- An assembler line is well-formed when it stands for an instruction. -/
def AsmLine.wellFormed (l : AsmLine) : Bool := l.toInstr.isSome

/-- `REG_OF_FIELD` is a one-to-one mapping between the eight field values and the eight registers, and `fieldOfReg` is
its inverse (spec/10_state.md R11). -/
def Config.regMapOk (c : Config) : Bool :=
  Reg.all.all (fun r => c.regOfField (c.fieldOfReg r) == r) &&
    (List.range 8).all (fun n => c.fieldOfReg (c.regOfField (BitVec.ofNat 3 n)) == BitVec.ofNat 3 n)

/-- The PC advances by whole instructions (R40, D3). -/
def Config.pcStepOk (c : Config) : Bool := c.pcStep.toNat % 4 == 0

/-- `JMP_IMM_SCALE` is 1, or 4 under the alternative reading (R3, D12). -/
def Config.scaleOk (c : Config) : Bool := c.jmpImmScale == 1#32 || c.jmpImmScale == 4#32

/-- `RESET_PC` is a multiple of 4 inside RAM (spec/70_reset_and_hazards.md R170). -/
def Config.resetPcOk (c : Config) : Bool := c.resetPc.toNat % 4 == 0 && c.resetPc.toNat + 3 ≤ ramLast

/-- A setting of the parameters that the spec admits. -/
def Config.wellFormed (c : Config) : Bool := c.regMapOk && c.pcStepOk && c.scaleOk && c.resetPcOk

/-- A program image the host may load: every byte of it lies in RAM (R172, R175, spec/20_memory.md R31). -/
def imageOk (image : List (Nat × Byte)) : Bool := image.all (fun c => decide (c.1 ≤ ramLast))

end Sys2Proof
end

