-- ==== Sys2Proof/Machine/Params.lean ====
section
/-! DEFINITION. The setting of the parameters of spec/00_scope.md R3 that this model runs with: the spec's default for
each. Every default is the spec's own choice, not the source's (spec/92_eei_decisions.md). -/

namespace Sys2Proof.Machine

/-- `REG_OF_FIELD` (spec/10_state.md R11, D1): field value n names R(n+1). DESIGN CHOICE of the spec, log 3. -/
def regOfField (n : BitVec 3) : Reg :=
  match n.toNat with
  | 0 => .r1
  | 1 => .r2
  | 2 => .r3
  | 3 => .r4
  | 4 => .r5
  | 5 => .r6
  | 6 => .r7
  | _ => .r8

/-- The field value that names a register (R11). -/
def fieldOfReg : Reg → BitVec 3
  | .r1 => 0#3
  | .r2 => 1#3
  | .r3 => 2#3
  | .r4 => 3#3
  | .r5 => 4#3
  | .r6 => 5#3
  | .r7 => 6#3
  | .r8 => 7#3

/-- The defaults of R3's table, row by row. DESIGN CHOICE of the spec, logs 3, 5 to 11, 13 to 16 and 21. -/
def config : Config where
  regOfField := regOfField
  fieldOfReg := fieldOfReg
  pcStep := 4#32
  addrWrap := .modulo
  immExtend := .zero
  illegalIsFault := true
  strictDontCare := false
  jmpImmScale := 1#32
  jmpcTakenWhenNonzero := true
  divmodSigned := true
  divByZero := .fault
  divOverflow := .wrap
  shiftAmountMode := .mod32
  resetPc := 0x00000000#32

end Sys2Proof.Machine
end

