-- ==== Sys2Proof/Decode.lean ====
section
/-! DEFINITION. Instruction words: the fields of a word and its byte order (spec/30_encoding.md R40 to R42,
spec/20_memory.md R22, R23), the decoder (R45 to R54), the ignored bits (R55), the opcode table (section 4), and the
encoder (the canonical words of the instruction rules). Decoding is total: a word or a byte list is an instruction or
is rejected by name. -/

namespace Sys2Proof

/-! Fields and bytes of a word. -/

/-- `w[lo+n-1 : lo]`: the `n`-bit field of a word whose least significant bit is bit `lo` (spec/00_scope.md R4, R5). -/
def field (w : Word) (lo n : Nat) : BitVec n := w.extractLsb' lo n

/-- `w[k]`: one bit of a word, bit 0 the least significant (R4). -/
def bit (w : Word) (k : Nat) : Bool := w.getLsbD k

/-- The register a 3-bit field of a word names (R42; `c.regOfField` is `REG_OF_FIELD`, R11). -/
def regField (c : Config) (w : Word) (lo : Nat) : Reg := c.regOfField (field w lo 3)

/-- Byte `i` of a value, `v[8i+7 : 8i]`: the byte that lies at `address + i` (little endian, R22). -/
def byteOf (v : Word) (i : Nat) : Byte := v.extractLsb' (8 * i) 8

/-- The four bytes of a word in memory order, lowest address first (R22, R23). -/
def wordBytes (v : Word) : List Byte := [byteOf v 0, byteOf v 1, byteOf v 2, byteOf v 3]

/-- The word whose bytes at `a`, `a+1`, `a+2`, `a+3` are given: `RAM[a+3] ++ RAM[a+2] ++ RAM[a+1] ++ RAM[a]` (R23). -/
def wordOfBytes (b0 b1 b2 b3 : Byte) : Word := b3 ++ b2 ++ b1 ++ b0

/-! The opcode table (section 4). -/

/-- A row of the opcode table: a word `w` is the row's mnemonic when `w & mask = pattern`; `ignored` has a one for
every bit of the word that no rule reads (R55). -/
structure OpcodeRow where
  mask : Word
  pattern : Word
  ignored : Word
deriving DecidableEq, Repr

/-- The opcode table (section 4) with the ignored bits of R55, one row per mnemonic. -/
def opcodeRow : Mnemonic → OpcodeRow
  | .jmp => ⟨0x0000001F#32, 0x00000000#32, 0xFFFFC700#32⟩
  | .jmpi => ⟨0x0000001F#32, 0x00000008#32, 0x00000700#32⟩
  | .jmpc => ⟨0x0000001F#32, 0x00000010#32, 0xFFFFC000#32⟩
  | .jmpic => ⟨0x0000001F#32, 0x00000018#32, 0x00000000#32⟩
  | .stb => ⟨0x0000007F#32, 0x00000001#32, 0xFFFF0000#32⟩
  | .sth => ⟨0x0000007F#32, 0x00000011#32, 0xFFFF0000#32⟩
  | .stw => ⟨0x0000007F#32, 0x00000021#32, 0xFFFF0000#32⟩
  | .stbi => ⟨0x0000007F#32, 0x00000041#32, 0x00000000#32⟩
  | .sthi => ⟨0x0000007F#32, 0x00000051#32, 0x00000000#32⟩
  | .stwi => ⟨0x0000007F#32, 0x00000061#32, 0x00000000#32⟩
  | .ldb => ⟨0x0000007F#32, 0x00000009#32, 0xFFFF0000#32⟩
  | .ldh => ⟨0x0000007F#32, 0x00000019#32, 0xFFFF0000#32⟩
  | .ldw => ⟨0x0000007F#32, 0x00000029#32, 0xFFFF0000#32⟩
  | .ldbi => ⟨0x0000007F#32, 0x00000049#32, 0x00000000#32⟩
  | .ldhi => ⟨0x0000007F#32, 0x00000059#32, 0x00000000#32⟩
  | .ldwi => ⟨0x0000007F#32, 0x00000069#32, 0x00000000#32⟩
  | .set => ⟨0x0000000F#32, 0x00000002#32, 0x00000000#32⟩
  | .setn => ⟨0x0000000F#32, 0x0000000A#32, 0x00000000#32⟩
  | .setu => ⟨0x00000007#32, 0x00000003#32, 0xFFFFF000#32⟩
  | .add => ⟨0x0000007F#32, 0x00000004#32, 0xFFFF0000#32⟩
  | .addi => ⟨0x0000007F#32, 0x00000044#32, 0x00000000#32⟩
  | .sub => ⟨0x0000007F#32, 0x0000000C#32, 0xFFFF0000#32⟩
  | .subi => ⟨0x0000007F#32, 0x0000004C#32, 0x00000000#32⟩
  | .mul => ⟨0x0000007F#32, 0x00000014#32, 0xFFFF0000#32⟩
  | .muli => ⟨0x0000007F#32, 0x00000054#32, 0x00000000#32⟩
  | .div => ⟨0x0000007F#32, 0x0000001C#32, 0xFFFF0000#32⟩
  | .divi => ⟨0x0000007F#32, 0x0000005C#32, 0x00000000#32⟩
  | .mod => ⟨0x0000007F#32, 0x00000024#32, 0xFFFF0000#32⟩
  | .modi => ⟨0x0000007F#32, 0x00000064#32, 0x00000000#32⟩
  | .and => ⟨0x0000003F#32, 0x00000005#32, 0xFFFF0040#32⟩
  | .andi => ⟨0x0000007F#32, 0x00000025#32, 0x00000000#32⟩
  | .andf => ⟨0x0000007F#32, 0x00000065#32, 0x00000000#32⟩
  | .or => ⟨0x0000003F#32, 0x0000000D#32, 0xFFFF0040#32⟩
  | .ori => ⟨0x0000007F#32, 0x0000002D#32, 0x00000000#32⟩
  | .orf => ⟨0x0000007F#32, 0x0000006D#32, 0x00000000#32⟩
  | .xor => ⟨0x0000003F#32, 0x00000015#32, 0xFFFF0040#32⟩
  | .xori => ⟨0x0000007F#32, 0x00000035#32, 0x00000000#32⟩
  | .xorf => ⟨0x0000007F#32, 0x00000075#32, 0x00000000#32⟩
  | .bsr => ⟨0x0000003F#32, 0x00000006#32, 0xFFFF8000#32⟩
  | .bsri => ⟨0x0000003F#32, 0x00000016#32, 0xFFFE0000#32⟩
  | .bsrr => ⟨0x0000003F#32, 0x00000026#32, 0xFFFF8000#32⟩
  | .bsrri => ⟨0x0000003F#32, 0x00000036#32, 0xFFFE0000#32⟩
  | .bsl => ⟨0x0000003F#32, 0x0000000E#32, 0xFFFF8000#32⟩
  | .bsli => ⟨0x0000003F#32, 0x0000001E#32, 0xFFFE0000#32⟩
  | .bslr => ⟨0x0000003F#32, 0x0000002E#32, 0xFFFF8000#32⟩
  | .bslri => ⟨0x0000003F#32, 0x0000003E#32, 0xFFFE0000#32⟩

/-! The decoder (R45). -/

/-- Why a word or a byte list is no instruction. -/
inductive DecodeError where
  /-- Op code 111 (R53). -/
  | unusedOpCode
  /-- Op code 001 with width field 3 (R54, R74). -/
  | unusedWidth
  /-- Op code 100 with operation field 5, 6 or 7 (R54, R104). -/
  | unusedArithmetic
  /-- Op code 101 with operation field 3 (R54, R122). -/
  | unusedBitwise
  /-- An ignored bit is set and `STRICT_DONT_CARE` is true (R55). -/
  | nonCanonical
  /-- Fewer than the four bytes of an instruction (R40). -/
  | truncated
deriving DecidableEq, Repr

/-- Format J: the mnemonic by (I, C) = (`insn[3]`, `insn[4]`) (R46). -/
def decodeJ (c : Config) (w : Word) : Instr :=
  match bit w 3, bit w 4 with
  | false, false => .jmp (regField c w 5) (regField c w 11)
  | true, false => .jmpi (regField c w 5) (field w 11 21)
  | false, true => .jmpc (regField c w 5) (regField c w 11) (regField c w 8)
  | true, true => .jmpic (regField c w 5) (field w 11 21) (regField c w 8)

/-- Format M: the mnemonic by (L, W, I) = (`insn[3]`, `insn[5:4]`, `insn[6]`); W = 3 is illegal (R47, R54). -/
def decodeM (c : Config) (w : Word) : Except DecodeError Instr :=
  match bit w 3, (field w 4 2).toNat, bit w 6 with
  | false, 0, false => .ok (.stb (regField c w 7) (regField c w 10) (regField c w 13))
  | false, 1, false => .ok (.sth (regField c w 7) (regField c w 10) (regField c w 13))
  | false, 2, false => .ok (.stw (regField c w 7) (regField c w 10) (regField c w 13))
  | false, 0, true => .ok (.stbi (regField c w 7) (regField c w 10) (field w 13 19))
  | false, 1, true => .ok (.sthi (regField c w 7) (regField c w 10) (field w 13 19))
  | false, 2, true => .ok (.stwi (regField c w 7) (regField c w 10) (field w 13 19))
  | true, 0, false => .ok (.ldb (regField c w 7) (regField c w 10) (regField c w 13))
  | true, 1, false => .ok (.ldh (regField c w 7) (regField c w 10) (regField c w 13))
  | true, 2, false => .ok (.ldw (regField c w 7) (regField c w 10) (regField c w 13))
  | true, 0, true => .ok (.ldbi (regField c w 7) (regField c w 10) (field w 13 19))
  | true, 1, true => .ok (.ldhi (regField c w 7) (regField c w 10) (field w 13 19))
  | true, 2, true => .ok (.ldwi (regField c w 7) (regField c w 10) (field w 13 19))
  | _, _, _ => .error .unusedWidth

/-- Format S: the mnemonic by N = `insn[3]` (R48). -/
def decodeS (c : Config) (w : Word) : Instr :=
  match bit w 3 with
  | false => .set (regField c w 4) (field w 7 25)
  | true => .setn (regField c w 4) (field w 7 25)

/-- Format U: SETU, whose value field is `insn[11:6]` (R49, conflict C1). -/
def decodeU (c : Config) (w : Word) : Instr := .setu (regField c w 3) (field w 6 6)

/-- Format A: the mnemonic by (fn, I) = (`insn[5:3]`, `insn[6]`); fn 5, 6, 7 are illegal (R50, R54). -/
def decodeA (c : Config) (w : Word) : Except DecodeError Instr :=
  match (field w 3 3).toNat, bit w 6 with
  | 0, false => .ok (.add (regField c w 7) (regField c w 10) (regField c w 13))
  | 0, true => .ok (.addi (regField c w 7) (regField c w 10) (field w 13 19))
  | 1, false => .ok (.sub (regField c w 7) (regField c w 10) (regField c w 13))
  | 1, true => .ok (.subi (regField c w 7) (regField c w 10) (field w 13 19))
  | 2, false => .ok (.mul (regField c w 7) (regField c w 10) (regField c w 13))
  | 2, true => .ok (.muli (regField c w 7) (regField c w 10) (field w 13 19))
  | 3, false => .ok (.div (regField c w 7) (regField c w 10) (regField c w 13))
  | 3, true => .ok (.divi (regField c w 7) (regField c w 10) (field w 13 19))
  | 4, false => .ok (.mod (regField c w 7) (regField c w 10) (regField c w 13))
  | 4, true => .ok (.modi (regField c w 7) (regField c w 10) (field w 13 19))
  | _, _ => .error .unusedArithmetic

/-- Format B: the mnemonic by (fn, I, F) = (`insn[4:3]`, `insn[5]`, `insn[6]`); F counts only with I (conflict C6);
fn 3 is illegal (R51, R54). -/
def decodeB (c : Config) (w : Word) : Except DecodeError Instr :=
  match (field w 3 2).toNat, bit w 5, bit w 6 with
  | 0, false, _ => .ok (.and (regField c w 7) (regField c w 10) (regField c w 13))
  | 0, true, false => .ok (.andi (regField c w 7) (regField c w 10) (field w 13 19))
  | 0, true, true => .ok (.andf (regField c w 7) (regField c w 10) (field w 13 19))
  | 1, false, _ => .ok (.or (regField c w 7) (regField c w 10) (regField c w 13))
  | 1, true, false => .ok (.ori (regField c w 7) (regField c w 10) (field w 13 19))
  | 1, true, true => .ok (.orf (regField c w 7) (regField c w 10) (field w 13 19))
  | 2, false, _ => .ok (.xor (regField c w 7) (regField c w 10) (regField c w 13))
  | 2, true, false => .ok (.xori (regField c w 7) (regField c w 10) (field w 13 19))
  | 2, true, true => .ok (.xorf (regField c w 7) (regField c w 10) (field w 13 19))
  | _, _, _ => .error .unusedBitwise

/-- Format H: the mnemonic by (D, R, I) = (`insn[3]`, `insn[5]`, `insn[4]`); every combination is defined (R52, R138). -/
def decodeH (c : Config) (w : Word) : Instr :=
  match bit w 3, bit w 5, bit w 4 with
  | false, false, false => .bsr (regField c w 6) (regField c w 9) (regField c w 12)
  | false, false, true => .bsri (regField c w 6) (regField c w 9) (field w 12 5)
  | false, true, false => .bsrr (regField c w 6) (regField c w 9) (regField c w 12)
  | false, true, true => .bsrri (regField c w 6) (regField c w 9) (field w 12 5)
  | true, false, false => .bsl (regField c w 6) (regField c w 9) (regField c w 12)
  | true, false, true => .bsli (regField c w 6) (regField c w 9) (field w 12 5)
  | true, true, false => .bslr (regField c w 6) (regField c w 9) (regField c w 12)
  | true, true, true => .bslri (regField c w 6) (regField c w 9) (field w 12 5)

/-- R45: the format by the op code `insn[2:0]`, then the mnemonic by the format's control bits. -/
def decodeAny (c : Config) (w : Word) : Except DecodeError Instr :=
  match (field w 0 3).toNat with
  | 0 => .ok (decodeJ c w)
  | 1 => decodeM c w
  | 2 => .ok (decodeS c w)
  | 3 => .ok (decodeU c w)
  | 4 => decodeA c w
  | 5 => decodeB c w
  | 6 => .ok (decodeH c w)
  | _ => .error .unusedOpCode

/-- A word is canonical for a mnemonic when every bit R55 lists for it is zero. -/
def canonical (m : Mnemonic) (w : Word) : Bool := (w &&& (opcodeRow m).ignored) == 0#32

/-- R45 whole: every word is one instruction or is rejected; under `STRICT_DONT_CARE` a non-canonical word is rejected
too (R55). -/
def decodeWord (c : Config) (w : Word) : Except DecodeError Instr :=
  match decodeAny c w with
  | .ok i => if c.strictDontCare && !canonical i.mnemonic w then .error .nonCanonical else .ok i
  | .error e => .error e

/-- Decode from bytes, lowest address first: an instruction is always four bytes (R40, R23). Answers the instruction
and the bytes after it. -/
def decodeBytes (c : Config) : List Byte → Except DecodeError (Instr × List Byte)
  | b0 :: b1 :: b2 :: b3 :: rest =>
    match decodeWord c (wordOfBytes b0 b1 b2 b3) with
    | .ok i => .ok (i, rest)
    | .error e => .error e
  | _ => .error .truncated

/-- The instruction the decoder reads from an instruction whose bits are `w`, bit 0 the least significant; `nbits` bits
are given and every bit above them is 0. -/
def decodeTableWord (nbits w : Nat) : Option Instr :=
  match decodeBytes Machine.config (wordBytes (BitVec.ofNat 32 (w % 2 ^ nbits))) with
  | .ok (i, _) => some i
  | .error _ => none

/-! The encoder: the canonical words of the instruction rules, every ignored bit zero (R55). -/

/-- A format J word (R46), from its fields. -/
def wordJ (off : BitVec 21) (ctrl base : BitVec 3) (low : BitVec 5) : Word := off ++ ctrl ++ base ++ low

/-- A word of formats M, A and B, which place their operands alike (R47, R50, R51). -/
def wordM (third : BitVec 19) (second first : BitVec 3) (low : BitVec 7) : Word := third ++ second ++ first ++ low

/-- A format S word (R48). -/
def wordS (val : BitVec 25) (rd : BitVec 3) (low : BitVec 4) : Word := val ++ rd ++ low

/-- A format U word (R49) with `insn[31:12]` zero. -/
def wordU (val : BitVec 6) (rd : BitVec 3) (low : BitVec 3) : Word := 0#20 ++ val ++ rd ++ low

/-- A format H word (R52) with `insn[31:17]` zero. -/
def wordH (src2 : BitVec 5) (rs1 rd : BitVec 3) (low : BitVec 6) : Word := 0#15 ++ src2 ++ rs1 ++ rd ++ low

/-- A register number in a format J offset field, its higher bits zero (R42). -/
def regInJ (f : BitVec 3) : BitVec 21 := 0#18 ++ f

/-- A register number in the wide field of formats M, A and B (R42). -/
def regInM (f : BitVec 3) : BitVec 19 := 0#16 ++ f

/-- A register number in the source field of format H (R42). -/
def regInH (f : BitVec 3) : BitVec 5 := 0#2 ++ f

/-- The canonical word of an instruction (the encoding line of its rule). -/
def encode (c : Config) : Instr → Word
  | .jmp base off => wordJ (regInJ (c.fieldOfReg off)) 0#3 (c.fieldOfReg base) 0b00000#5
  | .jmpi base imm => wordJ imm 0#3 (c.fieldOfReg base) 0b01000#5
  | .jmpc base off ctrl => wordJ (regInJ (c.fieldOfReg off)) (c.fieldOfReg ctrl) (c.fieldOfReg base) 0b10000#5
  | .jmpic base imm ctrl => wordJ imm (c.fieldOfReg ctrl) (c.fieldOfReg base) 0b11000#5
  | .stb src base off => wordM (regInM (c.fieldOfReg off)) (c.fieldOfReg base) (c.fieldOfReg src) 0b0000001#7
  | .sth src base off => wordM (regInM (c.fieldOfReg off)) (c.fieldOfReg base) (c.fieldOfReg src) 0b0010001#7
  | .stw src base off => wordM (regInM (c.fieldOfReg off)) (c.fieldOfReg base) (c.fieldOfReg src) 0b0100001#7
  | .stbi src base imm => wordM imm (c.fieldOfReg base) (c.fieldOfReg src) 0b1000001#7
  | .sthi src base imm => wordM imm (c.fieldOfReg base) (c.fieldOfReg src) 0b1010001#7
  | .stwi src base imm => wordM imm (c.fieldOfReg base) (c.fieldOfReg src) 0b1100001#7
  | .ldb dest base off => wordM (regInM (c.fieldOfReg off)) (c.fieldOfReg base) (c.fieldOfReg dest) 0b0001001#7
  | .ldh dest base off => wordM (regInM (c.fieldOfReg off)) (c.fieldOfReg base) (c.fieldOfReg dest) 0b0011001#7
  | .ldw dest base off => wordM (regInM (c.fieldOfReg off)) (c.fieldOfReg base) (c.fieldOfReg dest) 0b0101001#7
  | .ldbi dest base imm => wordM imm (c.fieldOfReg base) (c.fieldOfReg dest) 0b1001001#7
  | .ldhi dest base imm => wordM imm (c.fieldOfReg base) (c.fieldOfReg dest) 0b1011001#7
  | .ldwi dest base imm => wordM imm (c.fieldOfReg base) (c.fieldOfReg dest) 0b1101001#7
  | .set dest val => wordS val (c.fieldOfReg dest) 0b0010#4
  | .setn dest val => wordS val (c.fieldOfReg dest) 0b1010#4
  | .setu dest val => wordU val (c.fieldOfReg dest) 0b011#3
  | .add dest src1 src2 => wordM (regInM (c.fieldOfReg src2)) (c.fieldOfReg src1) (c.fieldOfReg dest) 0b0000100#7
  | .addi dest src imm => wordM imm (c.fieldOfReg src) (c.fieldOfReg dest) 0b1000100#7
  | .sub dest src1 src2 => wordM (regInM (c.fieldOfReg src2)) (c.fieldOfReg src1) (c.fieldOfReg dest) 0b0001100#7
  | .subi dest src imm => wordM imm (c.fieldOfReg src) (c.fieldOfReg dest) 0b1001100#7
  | .mul dest src1 src2 => wordM (regInM (c.fieldOfReg src2)) (c.fieldOfReg src1) (c.fieldOfReg dest) 0b0010100#7
  | .muli dest src imm => wordM imm (c.fieldOfReg src) (c.fieldOfReg dest) 0b1010100#7
  | .div dest src1 src2 => wordM (regInM (c.fieldOfReg src2)) (c.fieldOfReg src1) (c.fieldOfReg dest) 0b0011100#7
  | .divi dest src imm => wordM imm (c.fieldOfReg src) (c.fieldOfReg dest) 0b1011100#7
  | .mod dest src1 src2 => wordM (regInM (c.fieldOfReg src2)) (c.fieldOfReg src1) (c.fieldOfReg dest) 0b0100100#7
  | .modi dest src imm => wordM imm (c.fieldOfReg src) (c.fieldOfReg dest) 0b1100100#7
  | .and dest src1 src2 => wordM (regInM (c.fieldOfReg src2)) (c.fieldOfReg src1) (c.fieldOfReg dest) 0b0000101#7
  | .andi dest src imm => wordM imm (c.fieldOfReg src) (c.fieldOfReg dest) 0b0100101#7
  | .andf dest src imm => wordM imm (c.fieldOfReg src) (c.fieldOfReg dest) 0b1100101#7
  | .or dest src1 src2 => wordM (regInM (c.fieldOfReg src2)) (c.fieldOfReg src1) (c.fieldOfReg dest) 0b0001101#7
  | .ori dest src imm => wordM imm (c.fieldOfReg src) (c.fieldOfReg dest) 0b0101101#7
  | .orf dest src imm => wordM imm (c.fieldOfReg src) (c.fieldOfReg dest) 0b1101101#7
  | .xor dest src1 src2 => wordM (regInM (c.fieldOfReg src2)) (c.fieldOfReg src1) (c.fieldOfReg dest) 0b0010101#7
  | .xori dest src imm => wordM imm (c.fieldOfReg src) (c.fieldOfReg dest) 0b0110101#7
  | .xorf dest src imm => wordM imm (c.fieldOfReg src) (c.fieldOfReg dest) 0b1110101#7
  | .bsr dest src amount => wordH (regInH (c.fieldOfReg amount)) (c.fieldOfReg src) (c.fieldOfReg dest) 0b000110#6
  | .bsri dest src imm => wordH imm (c.fieldOfReg src) (c.fieldOfReg dest) 0b010110#6
  | .bsrr dest src amount => wordH (regInH (c.fieldOfReg amount)) (c.fieldOfReg src) (c.fieldOfReg dest) 0b100110#6
  | .bsrri dest src imm => wordH imm (c.fieldOfReg src) (c.fieldOfReg dest) 0b110110#6
  | .bsl dest src amount => wordH (regInH (c.fieldOfReg amount)) (c.fieldOfReg src) (c.fieldOfReg dest) 0b001110#6
  | .bsli dest src imm => wordH imm (c.fieldOfReg src) (c.fieldOfReg dest) 0b011110#6
  | .bslr dest src amount => wordH (regInH (c.fieldOfReg amount)) (c.fieldOfReg src) (c.fieldOfReg dest) 0b101110#6
  | .bslri dest src imm => wordH imm (c.fieldOfReg src) (c.fieldOfReg dest) 0b111110#6

/-- The word an assembler line stands for, if it is well-formed (R57). -/
def assemble (c : Config) (l : AsmLine) : Option Word := l.toInstr.map (encode c)

end Sys2Proof
end

