-- ==== Sys2Proof/Machine/Memory.lean ====
section
/-! DEFINITION. RAM (spec/20_memory.md R20): a list of (address, byte) pairs in one canonical form, and its operations:
one byte, and the little-endian values of 1 to 4 bytes built from bytes (R22, R24). Checks on addresses are made by
`memRead` and `memWrite` in Sys2Proof/Machine/Ops.lean. -/

namespace Sys2Proof.Machine

/-- RAM: the bytes that hold a value, by address, addresses strictly rising. -/
abbrev Memory := List Host.Cell

/-- What an address that is not listed reads as: no value. After reset every RAM byte the host did not load is
unspecified, and reading one before writing it faults, the treatment spec/70_reset_and_hazards.md R171 calls the safer
one. DESIGN CHOICE, log 2: safe. -/
def Memory.unlisted : Option Byte := none

/-- The byte at an address, if it holds one. -/
def Memory.read : Memory → Nat → Option Byte
  | [], _ => Memory.unlisted
  | (x, v) :: rest, a => if a = x then some v else Memory.read rest a

/-- Put a cell before a list, unless the byte is what the unlisted address reads as. -/
def Memory.put (a : Nat) (b : Byte) (rest : Memory) : Memory :=
  if Memory.unlisted = some b then rest else (a, b) :: rest

/-- Store one byte at an address, keeping the canonical form. -/
def Memory.write : Memory → Nat → Byte → Memory
  | [], a, b => Memory.put a b []
  | (x, v) :: rest, a, b =>
    if a < x then Memory.put a b ((x, v) :: rest)
    else if a = x then Memory.put a b rest
    else (x, v) :: Memory.write rest a b

/-- Every address of the list lies above `a`. -/
def Memory.above (a : Nat) (m : Memory) : Bool := m.all (fun c => decide (a < c.1))

/-- The canonical form: addresses strictly rising, and no entry equal to what an unlisted address reads as. -/
def Memory.wf : Memory → Bool
  | [] => true
  | (x, v) :: rest => Memory.above x rest && decide (Memory.unlisted ≠ some v) && Memory.wf rest

/-- Every listed address is an address of RAM (spec/20_memory.md R20, R31). -/
def Memory.inRam (m : Memory) : Bool := m.all (fun c => decide (c.1 ≤ ramLast))

/-- The `n` bytes from address `a` up, as one number with the byte at `a` least significant (R22), in a word whose
other bits are zero; no value if one of the bytes holds none. -/
def Memory.readLE (m : Memory) (a : Nat) : Nat → Option Word
  | 0 => some 0#32
  | n + 1 =>
    match m.read a, m.readLE (a + 1) n with
    | some b, some v => some (b.zeroExtend 32 ||| v <<< 8)
    | _, _ => none

/-- Store the `n` low bytes of `v` from address `a` up: byte `v[8i+7 : 8i]` at `a + i` (R22, R28). -/
def Memory.writeLE (m : Memory) (a : Nat) : Nat → Word → Memory
  | 0, _ => m
  | n + 1, v => (m.write a (byteOf v 0)).writeLE (a + 1) n (v >>> 8)

end Sys2Proof.Machine
end

