-- ==== Sys2Proof/Machine/State.lean ====
section
/-! DEFINITION. The whole architectural state (spec/10_state.md, opening table: pc, R1 .. R8, RAM, "nothing else is
state"), the six fault kinds of spec/60_exceptions.md R151 with those the model adds, the refusals, and the state after
reset (spec/70_reset_and_hazards.md R170, R171). -/

namespace Sys2Proof.Machine

/-- The register file: R1 .. R8, 32 bits each (R10). -/
structure Regs where
  r1 : Word
  r2 : Word
  r3 : Word
  r4 : Word
  r5 : Word
  r6 : Word
  r7 : Word
  r8 : Word
deriving DecidableEq, Repr

/-- The machine's state (spec/10_state.md R10, R13, R17). -/
structure State where
  /-- The program counter: the address of the next instruction to execute (R13). -/
  pc : Word
  /-- R1 .. R8 (R10). -/
  regs : Regs
  /-- RAM (R17). -/
  mem : List Host.Cell
deriving DecidableEq, Repr

/-- The width of an access: 1, 2 or 4 bytes (spec/20_memory.md R29). -/
inductive Width where
  | byte | half | word
deriving DecidableEq, Repr

/-- Whether an access is a load or a store (spec/60_exceptions.md R154). -/
inductive AccessKind where
  | load | store
deriving DecidableEq, Repr

/-- The faults: the terminal outcome of spec/60_exceptions.md R150. -/
inductive Fault where
  /-- `Fault.MisalignedFetch` (R153): raised by the fetch of any step when `pc mod 4 ≠ 0`. Safe: the spec's own (D6). -/
  | misalignedFetch (pc : Word)
  /-- `Fault.FetchOutOfRange` (R153): raised by the fetch when the pc is aligned and outside RAM. Safe: the spec's own
  (D7). -/
  | fetchOutOfRange (pc : Word)
  /-- `Fault.IllegalInstruction` (R152): raised at decode when the word encodes no instruction. Safe: the spec's own
  (D10). -/
  | illegalInstruction (pc insn : Word)
  /-- `Fault.MisalignedAccess` (R154): raised by the eight 2- and 4-byte loads and stores when `ea mod n ≠ 0`. Safe: the
  spec's own (D6). -/
  | misalignedAccess (pc ea : Word) (width : Width) (kind : AccessKind)
  /-- `Fault.AccessOutOfRange` (R154): raised by all loads and stores when the access is aligned and outside RAM. Safe:
  the spec's own (D7). -/
  | accessOutOfRange (pc ea : Word) (width : Width) (kind : AccessKind)
  /-- `Fault.DivideByZero` (R155): raised by DIV, DIVI, MOD and MODI when the second operand is 0. Safe: the spec's own
  (D16). -/
  | divideByZero (pc : Word)
  /-- Raised by the fetch when a byte of the instruction holds no value: nothing loaded or stored it (R171's "reading it
  before writing it faults"; log 2). Safe: hardware would go on with bytes the spec leaves unspecified. -/
  | unwrittenFetch (pc : Word)
  /-- Raised by a load when a byte it reads holds no value (R171; log 2). Safe, as `unwrittenFetch`. -/
  | unwrittenRead (pc ea : Word) (width : Width)
  /-- Raised by jumps, loads and stores whose address sum carries out of 32 bits, only under `ADDR_WRAP` = faultOnCarry
  (D8; log 6); never under the default. Safe. -/
  | addressCarry (pc base offset : Word)
  /-- Raised by DIV and MOD on 0x80000000 and 0xFFFFFFFF, only under `DIV_OVERFLOW` = fault (D17; log 15); never under
  the default. Safe. -/
  | divideOverflow (pc : Word)
  /-- Raised by BSR and BSL when the amount register holds 32 or more, only under `SHIFT_AMOUNT_MODE` = fault (D18;
  log 16); never under the default. Safe. -/
  | shiftAmount (pc amount : Word)
deriving DecidableEq, Repr

/-- The refusals: what the model gives no meaning. -/
inductive Refusal where
  /-- Raised by an arm of `exec` whose instruction has no meaning yet; no arm raises it now. Safe. -/
  | notModelled (mnemonic : String)
  /-- Raised at decode on a word that encodes no instruction, only under `ILLEGAL_IS_FAULT` = false (log 8); never under
  the default. Safe. -/
  | illegalEncoding (pc insn : Word)
deriving DecidableEq, Repr

/-- R1 .. R8 after reset. The spec gives no value ("unspecified", R171); each holds zero here. DESIGN CHOICE, log 1:
unsafe. -/
def Regs.reset : Regs := ⟨0#32, 0#32, 0#32, 0#32, 0#32, 0#32, 0#32, 0#32⟩

/-- The machine right after reset: pc at `RESET_PC` (R170), the registers at the values of log 1, and no RAM byte with
a value (R171; the host loads the image before the first step, R172). -/
def State.reset : State where
  pc := config.resetPc
  regs := Regs.reset
  mem := []

end Sys2Proof.Machine
end

