-- ==== Sys2Proof/Machine/Flags.lean ====
section
/-! DEFINITION. Conditions. The machine has no flags, no condition codes and no predicates (spec/10_state.md R15), so no
instruction computes one; a condition is an ordinary value in a general register, tested by JMPC and JMPIC. That test
is the whole of this file. -/

namespace Sys2Proof.Machine

/-- Whether a conditional jump is executed, by the value of its control register (spec/40_jmp.md R62,
`JMPC_TAKEN_WHEN_NONZERO`): all 32 bits count. DESIGN CHOICE of the spec (D13), log 11. -/
def jumpTaken (c : Config) (control : Word) : Bool :=
  if c.jmpcTakenWhenNonzero then control != 0#32 else control == 0#32

end Sys2Proof.Machine
end

