-- ==== Sys2Proof/Machine/Ops.lean ====
section
/-! DEFINITION. The operations every meaning is written in: reading and writing a register, the PC's advance, address
sums, the two memory primitives (spec/20_memory.md R27, R28), and taking an exception. -/

namespace Sys2Proof.Machine

/-- What a step answers. -/
abbrev Result := Host.Outcome State Fault Refusal

/-! Registers and the program counter. -/

/-- The value of a register (spec/10_state.md R12: no register is hardwired). -/
def Regs.get (x : Regs) : Reg → Word
  | .r1 => x.r1
  | .r2 => x.r2
  | .r3 => x.r3
  | .r4 => x.r4
  | .r5 => x.r5
  | .r6 => x.r6
  | .r7 => x.r7
  | .r8 => x.r8

/-- The registers with one written, in full (R12). -/
def Regs.set (x : Regs) (r : Reg) (v : Word) : Regs :=
  match r with
  | .r1 => { x with r1 := v }
  | .r2 => { x with r2 := v }
  | .r3 => { x with r3 := v }
  | .r4 => { x with r4 := v }
  | .r5 => { x with r5 := v }
  | .r6 => { x with r6 := v }
  | .r7 => { x with r7 := v }
  | .r8 => { x with r8 := v }

/-- `x[i]`: read a general register (spec/00_scope.md section 5.3). -/
def State.reg (s : State) (r : Reg) : Word := s.regs.get r

/-- `x[i] <- v`: write a general register. -/
def State.setReg (s : State) (r : Reg) (v : Word) : State := { s with regs := s.regs.set r v }

/-- `pc <- target`. -/
def State.setPc (s : State) (target : Word) : State := { s with pc := target }

/-- Replace RAM. -/
def State.setMem (s : State) (m : Memory) : State := { s with mem := m }

/-- `pc <- next_pc`: `pc + PC_STEP` modulo 2^32, where pc is still the address the instruction was fetched from
(spec/10_state.md R14, D3). -/
def State.advance (c : Config) (s : State) : State := s.setPc (s.pc + c.pcStep)

/-! Taking an exception. -/

/-- `raise Fault.<Kind>(info)`: taking an exception on this machine is the terminal outcome of spec/60_exceptions.md
R150. No state records a cause, no vector is consulted and no handler is entered; pc, registers and RAM stay exactly as
they were before the step (R150, R157), so the outcome carries the fault alone and the state is the one the step began
from. There is no return from an exception: no instruction is one, and nothing could be returned to (R159). -/
def raise (f : Fault) : Result := .fault f

/-- Go on with a value, or raise the fault that stood in its way. -/
def orRaise {α : Type} (x : Except Fault α) (k : α → Result) : Result :=
  match x with
  | .ok a => k a
  | .error f => raise f

/-! Address sums. -/

/-- `base + offset`, a 32-bit sum reduced modulo 2^32 by default (spec/40_jmp.md R60, spec/41_st_ld.md R70,
`ADDR_WRAP`). DESIGN CHOICE of the spec (D8), log 6. -/
def addressSum (c : Config) (pc base offset : Word) : Except Fault Word :=
  match c.addrWrap with
  | .modulo => .ok (base + offset)
  | .faultOnCarry =>
    if base.toNat + offset.toNat < 2 ^ 32 then .ok (base + offset) else .error (.addressCarry pc base offset)

/-! Memory. -/

/-- The number of bytes of an access (spec/20_memory.md R29). -/
def Width.bytes : Width → Nat
  | .byte => 1
  | .half => 2
  | .word => 4

/-- The two checks of `MemRead` and `MemWrite`, alignment first (spec/20_memory.md R27, R28, spec/60_exceptions.md
R156). The end of the access is computed in the integers (R27). -/
def accessFault (pc ea : Word) (w : Width) (kind : AccessKind) : Option Fault :=
  if ea.toNat % w.bytes ≠ 0 then some (.misalignedAccess pc ea w kind)
  else if ea.toNat + w.bytes - 1 > ramLast then some (.accessOutOfRange pc ea w kind)
  else none

/-- `MemRead(addr, n)` (R27), the bytes read zero-extended to a word (spec/41_st_ld.md R73). It changes no state. A byte
that holds no value faults after the two checks (log 2). -/
def memRead (s : State) (ea : Word) (w : Width) : Except Fault Word :=
  match accessFault s.pc ea w .load with
  | some f => .error f
  | none =>
    match Memory.readLE s.mem ea.toNat w.bytes with
    | some v => .ok v
    | none => .error (.unwrittenRead s.pc ea w)

/-- `MemWrite(addr, n, v)` (R28): the n low bytes of `v`; exactly n bytes change. -/
def memWrite (s : State) (ea : Word) (w : Width) (v : Word) : Except Fault State :=
  match accessFault s.pc ea w .store with
  | some f => .error f
  | none => .ok (s.setMem (Memory.writeLE s.mem ea.toNat w.bytes v))

/-! The shapes of an instruction's end. -/

/-- Write the destination register and advance the PC: the end of every instruction that computes a register. -/
def writeBack (c : Config) (dest : Reg) (v : Word) (s : State) : Result := .next ((s.setReg dest v).advance c)

/-- A jump that is executed: `pc <- base + offset` and nothing else (spec/40_jmp.md R60). The target is not checked
here: a bad one faults at the next fetch (R67, D35; log 27). -/
def jump (c : Config) (base offset : Word) (s : State) : Result :=
  orRaise (addressSum c s.pc base offset) fun target => .next (s.setPc target)

/-- A conditional jump: executed by the control value, else only the PC advances (R62). -/
def jumpIf (c : Config) (control base offset : Word) (s : State) : Result :=
  if jumpTaken c control then jump c base offset s else .next (s.advance c)

/-- A store of the low bytes of `v` (spec/41_st_ld.md R70, R72). -/
def store (c : Config) (w : Width) (v base offset : Word) (s : State) : Result :=
  orRaise (addressSum c s.pc base offset) fun ea =>
    orRaise (memWrite s ea w v) fun s' => .next (s'.advance c)

/-- A load, zero-filled above the bytes read (R70, R73). -/
def load (c : Config) (w : Width) (dest : Reg) (base offset : Word) (s : State) : Result :=
  orRaise (addressSum c s.pc base offset) fun ea =>
    orRaise (memRead s ea w) fun v => writeBack c dest v s

end Sys2Proof.Machine
end

