-- ==== Sys2Proof/Machine/Boot.lean ====
section
/-! DEFINITION. Boot (spec/70_reset_and_hazards.md R172, R175): before the first step the host writes any bytes of RAM,
chooses the entry point and may give R1 .. R8 values. It is no step of the machine. -/

namespace Sys2Proof.Machine

/-- Write the bytes of an image into RAM, one after the other (R172). -/
def Memory.load (m : Memory) : List Host.Cell → Memory
  | [] => m
  | c :: image => Memory.load (m.write c.1 c.2) image

/-- The bytes of a list of words laid out from an address, each word little endian (R172, spec/20_memory.md R23). -/
def imageOfWords (a : Nat) : List Word → List Host.Cell
  | [] => []
  | w :: ws =>
    [(a, byteOf w 0), (a + 1, byteOf w 1), (a + 2, byteOf w 2), (a + 3, byteOf w 3)] ++ imageOfWords (a + 4) ws

/-- The machine before its first step, as the host prepares it: the entry point in the pc, any register values, and the
image in a RAM that holds nothing else (R170, R171, R172, R175). -/
def State.boot (entry : Word) (regs : Regs) (image : List Host.Cell) : State where
  pc := entry
  regs := regs
  mem := Memory.load [] image

end Sys2Proof.Machine
end

