-- ==== Sys2Proof/Machine/Operands.lean ====
section
/-! DEFINITION. Every operand form of the seven formats: what value an immediate, a value field or a shift amount
stands for (spec/30_encoding.md R43 and the operand rule of each group). A register operand is `State.reg`. -/

namespace Sys2Proof.Machine

/-- A JMP or ST / LD immediate in 32 bits: zero-extended (R43, `IMM_EXTEND`). DESIGN CHOICE of the spec (D9), log 7: the
manual settles the extension of every other immediate, so the alternative touches these two groups only. -/
def extendOffset (c : Config) {n : Nat} (imm : BitVec n) : Word :=
  match c.immExtend with
  | .zero => imm.zeroExtend 32
  | .sign => imm.signExtend 32

/-- The immediate offset of JMPI and JMPIC (spec/40_jmp.md R61): scaled by `JMP_IMM_SCALE`, 1 by default. DESIGN CHOICE
of the spec (D12, conflict C3), log 10. -/
def jumpOffset (c : Config) (imm : BitVec 21) : Word := extendOffset c imm * c.jmpImmScale

/-- The immediate offset of loads and stores: a byte offset, not scaled by the width (spec/41_st_ld.md R71). -/
def accessOffset (c : Config) (imm : BitVec 19) : Word := extendOffset c imm

/-- The immediate of the arithmetic group, unsigned (spec/44_arithmetic.md R101, conflict C2). -/
def arithImm (imm : BitVec 19) : Word := imm.zeroExtend 32

/-- The immediate of ANDI, ORI and XORI: bits 31..19 zero (spec/45_bitwise.md R121). -/
def bitImm (imm : BitVec 19) : Word := imm.zeroExtend 32

/-- The immediate of ANDF, ORF and XORF: bits 31..19 one (R121). -/
def bitImmFilled (imm : BitVec 19) : Word := 0xFFF80000#32 ||| imm.zeroExtend 32

/-- What SET writes: the 25-bit value, bits 31..25 zero (spec/42_set.md R90, R91). -/
def setValue (val : BitVec 25) : Word := val.zeroExtend 32

/-- What SETN writes: the 25-bit value, bits 31..25 one (R90, R92). -/
def setnValue (val : BitVec 25) : Word := 0xFE000000#32 ||| val.zeroExtend 32

/-- What SETU writes: bits 30..25 from the value, bit 31 and bits 24..0 kept (spec/43_setu.md R95, R96, conflict C1).
DESIGN CHOICE of the spec (D30), log 25. -/
def setuValue (old : Word) (val : BitVec 6) : Word := (old &&& 0x81FFFFFF#32) ||| (val.zeroExtend 32 <<< 25)

/-- An immediate shift amount, 0 .. 31 (spec/46_shift.md R136). -/
def shiftImm (imm : BitVec 5) : Nat := imm.toNat

/-- The low 5 bits of an amount register (R136): the amount of a register rotate under every reading, since rotating by
n and by n mod 32 are the same. -/
def lowFive (x : Word) : Nat := (field x 0 5).toNat

/-- The amount of a register shift (R136, `SHIFT_AMOUNT_MODE`): the low 5 bits by default. DESIGN CHOICE of the spec
(D18), log 16. Under zeroResult the whole register is the amount, and 32 or more shifts every bit out. -/
def shiftAmount (c : Config) (pc x : Word) : Except Fault Nat :=
  match c.shiftAmountMode with
  | .mod32 => .ok (lowFive x)
  | .zeroResult => .ok x.toNat
  | .fault => if x.toNat < 32 then .ok x.toNat else .error (.shiftAmount pc x)

end Sys2Proof.Machine
end

