-- ==== Sys2Proof/Machine/Arith.lean ====
section
/-! DEFINITION. The arithmetic group (spec/44_arithmetic.md): results modulo 2^32 (R102), no flags (R100); division
and remainder by R103. -/

namespace Sys2Proof.Machine

/-- The quotient of R103: signed and rounded toward zero by default (`DIVMOD_SIGNED`), a zero divisor a fault by default
(`DIV_BY_ZERO`), the one overflow wrapped by default (`DIV_OVERFLOW`). Operands are read as integers, divided exactly
and reduced modulo 2^32. DESIGN CHOICE of the spec (D15, D16, D17), logs 13, 14, 15. -/
def quotient (c : Config) (pc a b : Word) : Except Fault Word :=
  if b = 0#32 then
    match c.divByZero with
    | .fault => .error (.divideByZero pc)
    | .freeValue => .ok (Config.quotientByZero a)
  else if c.divmodSigned then
    if a = 0x80000000#32 ∧ b = 0xFFFFFFFF#32 ∧ c.divOverflow = .fault then .error (.divideOverflow pc)
    else .ok (BitVec.ofInt 32 (Int.tdiv a.toInt b.toInt))
  else .ok (BitVec.ofNat 32 (a.toNat / b.toNat))

/-- The remainder of R103: the dividend minus the quotient times the divisor, so its sign is the dividend's, or it is
zero. The parameters act as in `quotient`. -/
def remainder (c : Config) (pc a b : Word) : Except Fault Word :=
  if b = 0#32 then
    match c.divByZero with
    | .fault => .error (.divideByZero pc)
    | .freeValue => .ok (Config.remainderByZero a)
  else if c.divmodSigned then
    if a = 0x80000000#32 ∧ b = 0xFFFFFFFF#32 ∧ c.divOverflow = .fault then .error (.divideOverflow pc)
    else .ok (BitVec.ofInt 32 (Int.tmod a.toInt b.toInt))
  else .ok (BitVec.ofNat 32 (a.toNat % b.toNat))

/-- ADD (R105), "Add": modulo 2^32 (R102). -/
def execAdd (dest src1 src2 : Reg) (s : State) : Result :=
  writeBack config dest (s.reg src1 + s.reg src2) s

/-- ADDI (R106), "Add with immediate value". -/
def execAddi (dest src : Reg) (imm : BitVec 19) (s : State) : Result :=
  writeBack config dest (s.reg src + arithImm imm) s

/-- SUB (R107), "Subtract": first minus second, modulo 2^32 (R102). -/
def execSub (dest src1 src2 : Reg) (s : State) : Result :=
  writeBack config dest (s.reg src1 - s.reg src2) s

/-- SUBI (R108), "Subtract with immediate value". -/
def execSubi (dest src : Reg) (imm : BitVec 19) (s : State) : Result :=
  writeBack config dest (s.reg src - arithImm imm) s

/-- MUL (R109), "Multiply": the low 32 bits of the product (R102). -/
def execMul (dest src1 src2 : Reg) (s : State) : Result :=
  writeBack config dest (s.reg src1 * s.reg src2) s

/-- MULI (R110), "Multiply with immediate value". -/
def execMuli (dest src : Reg) (imm : BitVec 19) (s : State) : Result :=
  writeBack config dest (s.reg src * arithImm imm) s

/-- DIV (R111), "Divide register 1 by register 2". -/
def execDiv (dest src1 src2 : Reg) (s : State) : Result :=
  orRaise (quotient config s.pc (s.reg src1) (s.reg src2)) fun v => writeBack config dest v s

/-- DIVI (R112), "Divide register by immediate value". -/
def execDivi (dest src : Reg) (imm : BitVec 19) (s : State) : Result :=
  orRaise (quotient config s.pc (s.reg src) (arithImm imm)) fun v => writeBack config dest v s

/-- MOD (R113), "Modulo register 1 by register 2". -/
def execMod (dest src1 src2 : Reg) (s : State) : Result :=
  orRaise (remainder config s.pc (s.reg src1) (s.reg src2)) fun v => writeBack config dest v s

/-- MODI (R114), "Modulo register by immediate value". -/
def execModi (dest src : Reg) (imm : BitVec 19) (s : State) : Result :=
  orRaise (remainder config s.pc (s.reg src) (arithImm imm)) fun v => writeBack config dest v s

end Sys2Proof.Machine
end

