-- ==== Sys2Proof/Machine/Bitwise.lean ====
section
/-! DEFINITION. The bitwise group (spec/45_bitwise.md): no instruction of it can fault. -/

namespace Sys2Proof.Machine

/-- AND (R123), "Bitwise AND". -/
def execAnd (dest src1 src2 : Reg) (s : State) : Result :=
  writeBack config dest (s.reg src1 &&& s.reg src2) s

/-- ANDI (R124), "Bitwise AND with immediate value". -/
def execAndi (dest src : Reg) (imm : BitVec 19) (s : State) : Result :=
  writeBack config dest (s.reg src &&& bitImm imm) s

/-- ANDF (R125), "Bitwise AND with immediate value, upper bits set to 1". -/
def execAndf (dest src : Reg) (imm : BitVec 19) (s : State) : Result :=
  writeBack config dest (s.reg src &&& bitImmFilled imm) s

/-- OR (R126), "Bitwise OR". -/
def execOr (dest src1 src2 : Reg) (s : State) : Result :=
  writeBack config dest (s.reg src1 ||| s.reg src2) s

/-- ORI (R127), "Bitwise OR with immediate value". -/
def execOri (dest src : Reg) (imm : BitVec 19) (s : State) : Result :=
  writeBack config dest (s.reg src ||| bitImm imm) s

/-- ORF (R128), "Bitwise OR with immediate value, upper bits set to 1". -/
def execOrf (dest src : Reg) (imm : BitVec 19) (s : State) : Result :=
  writeBack config dest (s.reg src ||| bitImmFilled imm) s

/-- XOR (R129), "Bitwise XOR". -/
def execXor (dest src1 src2 : Reg) (s : State) : Result :=
  writeBack config dest (s.reg src1 ^^^ s.reg src2) s

/-- XORI (R130), "Bitwise XOR with immediate value". -/
def execXori (dest src : Reg) (imm : BitVec 19) (s : State) : Result :=
  writeBack config dest (s.reg src ^^^ bitImm imm) s

/-- XORF (R131), "Bitwise XOR with immediate value, upper bits set to 1". -/
def execXorf (dest src : Reg) (imm : BitVec 19) (s : State) : Result :=
  writeBack config dest (s.reg src ^^^ bitImmFilled imm) s

end Sys2Proof.Machine
end

