-- ==== Sys2Proof/Machine/Jump.lean ====
section
/-! DEFINITION. The JMP group (spec/40_jmp.md): the PC is set to the base register plus an offset. No call, no link
register, no delay slot, no check of the target (R67). -/

namespace Sys2Proof.Machine

/-- JMP (R63), "Unconditional jump": pc <- x[base] + x[off]. -/
def execJmp (base off : Reg) (s : State) : Result :=
  jump config (s.reg base) (s.reg off) s

/-- JMPI (R64), "Jump with immediate offset": pc <- x[base] + imm21 × `JMP_IMM_SCALE`. -/
def execJmpi (base : Reg) (imm : BitVec 21) (s : State) : Result :=
  jump config (s.reg base) (jumpOffset config imm) s

/-- JMPC (R65), "Conditional jump": as JMP if the control register says so, else the PC advances. -/
def execJmpc (base off ctrl : Reg) (s : State) : Result :=
  jumpIf config (s.reg ctrl) (s.reg base) (s.reg off) s

/-- JMPIC (R66), "Conditional jump with immediate offset": as JMPI if the control register says so, else the PC
advances. -/
def execJmpic (base : Reg) (imm : BitVec 21) (ctrl : Reg) (s : State) : Result :=
  jumpIf config (s.reg ctrl) (s.reg base) (jumpOffset config imm) s

end Sys2Proof.Machine
end

