-- ==== Sys2Proof/Machine/LoadStore.lean ====
section
/-! DEFINITION. The ST / LD group (spec/41_st_ld.md): one addressing mode, base register plus offset (R70, R71); a
store writes the low bytes of its source register (R72), a load zero-fills its destination (R73). -/

namespace Sys2Proof.Machine

/-- STB (R75), "Store byte". -/
def execStb (src base off : Reg) (s : State) : Result :=
  store config .byte (s.reg src) (s.reg base) (s.reg off) s

/-- STH (R76), "Store half-word". -/
def execSth (src base off : Reg) (s : State) : Result :=
  store config .half (s.reg src) (s.reg base) (s.reg off) s

/-- STW (R77), "Store word". -/
def execStw (src base off : Reg) (s : State) : Result :=
  store config .word (s.reg src) (s.reg base) (s.reg off) s

/-- STBI (R78), "Store byte using immediate offset". -/
def execStbi (src base : Reg) (imm : BitVec 19) (s : State) : Result :=
  store config .byte (s.reg src) (s.reg base) (accessOffset config imm) s

/-- STHI (R79), "Store half-word using immediate offset". -/
def execSthi (src base : Reg) (imm : BitVec 19) (s : State) : Result :=
  store config .half (s.reg src) (s.reg base) (accessOffset config imm) s

/-- STWI (R80), "Store word using immediate offset". -/
def execStwi (src base : Reg) (imm : BitVec 19) (s : State) : Result :=
  store config .word (s.reg src) (s.reg base) (accessOffset config imm) s

/-- LDB (R81), "Load byte". -/
def execLdb (dest base off : Reg) (s : State) : Result :=
  load config .byte dest (s.reg base) (s.reg off) s

/-- LDH (R82), "Load half-word". -/
def execLdh (dest base off : Reg) (s : State) : Result :=
  load config .half dest (s.reg base) (s.reg off) s

/-- LDW (R83), "Load word". -/
def execLdw (dest base off : Reg) (s : State) : Result :=
  load config .word dest (s.reg base) (s.reg off) s

/-- LDBI (R84), "Load byte using immediate offset". -/
def execLdbi (dest base : Reg) (imm : BitVec 19) (s : State) : Result :=
  load config .byte dest (s.reg base) (accessOffset config imm) s

/-- LDHI (R85), "Load half-word using immediate offset". -/
def execLdhi (dest base : Reg) (imm : BitVec 19) (s : State) : Result :=
  load config .half dest (s.reg base) (accessOffset config imm) s

/-- LDWI (R86), "Load word using immediate offset". -/
def execLdwi (dest base : Reg) (imm : BitVec 19) (s : State) : Result :=
  load config .word dest (s.reg base) (accessOffset config imm) s

end Sys2Proof.Machine
end

