-- ==== Sys2Proof/Machine/SetReg.lean ====
section
/-! DEFINITION. SET, SETN (spec/42_set.md) and SETU (spec/43_setu.md). -/

namespace Sys2Proof.Machine

/-- SET (R91), "Set positive value": all 32 bits of the destination. -/
def execSet (dest : Reg) (val : BitVec 25) (s : State) : Result :=
  writeBack config dest (setValue val) s

/-- SETN (R92), "Set negative value": all 32 bits of the destination. -/
def execSetn (dest : Reg) (val : BitVec 25) (s : State) : Result :=
  writeBack config dest (setnValue val) s

/-- SETU (R96), "Set upper bits": bits 30..25 of the destination, the others kept. -/
def execSetu (dest : Reg) (val : BitVec 6) (s : State) : Result :=
  writeBack config dest (setuValue (s.reg dest) val) s

end Sys2Proof.Machine
end

