-- ==== Sys2Proof/Machine/Shift.lean ====
section
/-! DEFINITION. The shift group (spec/46_shift.md): shifts and rotates; none can fault under the default parameters. -/

namespace Sys2Proof.Machine

/-- Shift right, zero-fill: `a >>u n` (R137). -/
def shiftRight (a : Word) (n : Nat) : Word := a >>> n

/-- Shift left, zero-fill: `(a << n)[31:0]` (R137). -/
def shiftLeft (a : Word) (n : Nat) : Word := a <<< n

/-- Rotate right: `rotr(a, n)` (R137). -/
def rotateRight (a : Word) (n : Nat) : Word := a.rotateRight n

/-- Rotate left: `rotl(a, n)` (R137). -/
def rotateLeft (a : Word) (n : Nat) : Word := a.rotateLeft n

/-- BSR (R139), "Shift right, zero-fill", by the amount a register holds. -/
def execBsr (dest src amount : Reg) (s : State) : Result :=
  orRaise (shiftAmount config s.pc (s.reg amount)) fun n => writeBack config dest (shiftRight (s.reg src) n) s

/-- BSRI (R140), "Shift right with immediate value, zero-fill". -/
def execBsri (dest src : Reg) (imm : BitVec 5) (s : State) : Result :=
  writeBack config dest (shiftRight (s.reg src) (shiftImm imm)) s

/-- BSRR (R141), "Shift right with rotation (lower bits wrap to upper)", by the low 5 bits of a register. -/
def execBsrr (dest src amount : Reg) (s : State) : Result :=
  writeBack config dest (rotateRight (s.reg src) (lowFive (s.reg amount))) s

/-- BSRRI (R142), "Shift right with immediate value and rotation". -/
def execBsrri (dest src : Reg) (imm : BitVec 5) (s : State) : Result :=
  writeBack config dest (rotateRight (s.reg src) (shiftImm imm)) s

/-- BSL (R143), "Shift left, zero-fill", by the amount a register holds. -/
def execBsl (dest src amount : Reg) (s : State) : Result :=
  orRaise (shiftAmount config s.pc (s.reg amount)) fun n => writeBack config dest (shiftLeft (s.reg src) n) s

/-- BSLI (R144), "Shift left with immediate value, zero-fill". -/
def execBsli (dest src : Reg) (imm : BitVec 5) (s : State) : Result :=
  writeBack config dest (shiftLeft (s.reg src) (shiftImm imm)) s

/-- BSLR (R145), "Shift left with rotation (upper bits wrap to lower)", by the low 5 bits of a register. -/
def execBslr (dest src amount : Reg) (s : State) : Result :=
  writeBack config dest (rotateLeft (s.reg src) (lowFive (s.reg amount))) s

/-- BSLRI (R146), "Shift left with immediate value and rotation". -/
def execBslri (dest src : Reg) (imm : BitVec 5) (s : State) : Result :=
  writeBack config dest (rotateLeft (s.reg src) (shiftImm imm)) s

end Sys2Proof.Machine
end

