-- ==== Sys2Proof/Machine/Dispatch.lean ====
section
/-! DEFINITION. One arm per constructor of `Instr`: the call of its meaning. -/

namespace Sys2Proof.Machine

def exec (i : Instr) (s : State) : Host.Outcome State Fault Refusal :=
  match i with
  -- JMP group (spec/40_jmp.md)
  | .jmp base off => Sys2Proof.Machine.execJmp base off s
  | .jmpi base imm => Sys2Proof.Machine.execJmpi base imm s
  | .jmpc base off ctrl => Sys2Proof.Machine.execJmpc base off ctrl s
  | .jmpic base imm ctrl => Sys2Proof.Machine.execJmpic base imm ctrl s
  -- ST / LD group (spec/41_st_ld.md)
  | .stb src base off => Sys2Proof.Machine.execStb src base off s
  | .sth src base off => Sys2Proof.Machine.execSth src base off s
  | .stw src base off => Sys2Proof.Machine.execStw src base off s
  | .stbi src base imm => Sys2Proof.Machine.execStbi src base imm s
  | .sthi src base imm => Sys2Proof.Machine.execSthi src base imm s
  | .stwi src base imm => Sys2Proof.Machine.execStwi src base imm s
  | .ldb dest base off => Sys2Proof.Machine.execLdb dest base off s
  | .ldh dest base off => Sys2Proof.Machine.execLdh dest base off s
  | .ldw dest base off => Sys2Proof.Machine.execLdw dest base off s
  | .ldbi dest base imm => Sys2Proof.Machine.execLdbi dest base imm s
  | .ldhi dest base imm => Sys2Proof.Machine.execLdhi dest base imm s
  | .ldwi dest base imm => Sys2Proof.Machine.execLdwi dest base imm s
  -- SET group (spec/42_set.md)
  | .set dest val => Sys2Proof.Machine.execSet dest val s
  | .setn dest val => Sys2Proof.Machine.execSetn dest val s
  -- SETU (spec/43_setu.md)
  | .setu dest val => Sys2Proof.Machine.execSetu dest val s
  -- arithmetic group (spec/44_arithmetic.md)
  | .add dest src1 src2 => Sys2Proof.Machine.execAdd dest src1 src2 s
  | .addi dest src imm => Sys2Proof.Machine.execAddi dest src imm s
  | .sub dest src1 src2 => Sys2Proof.Machine.execSub dest src1 src2 s
  | .subi dest src imm => Sys2Proof.Machine.execSubi dest src imm s
  | .mul dest src1 src2 => Sys2Proof.Machine.execMul dest src1 src2 s
  | .muli dest src imm => Sys2Proof.Machine.execMuli dest src imm s
  | .div dest src1 src2 => Sys2Proof.Machine.execDiv dest src1 src2 s
  | .divi dest src imm => Sys2Proof.Machine.execDivi dest src imm s
  | .mod dest src1 src2 => Sys2Proof.Machine.execMod dest src1 src2 s
  | .modi dest src imm => Sys2Proof.Machine.execModi dest src imm s
  -- bitwise group (spec/45_bitwise.md)
  | .and dest src1 src2 => Sys2Proof.Machine.execAnd dest src1 src2 s
  | .andi dest src imm => Sys2Proof.Machine.execAndi dest src imm s
  | .andf dest src imm => Sys2Proof.Machine.execAndf dest src imm s
  | .or dest src1 src2 => Sys2Proof.Machine.execOr dest src1 src2 s
  | .ori dest src imm => Sys2Proof.Machine.execOri dest src imm s
  | .orf dest src imm => Sys2Proof.Machine.execOrf dest src imm s
  | .xor dest src1 src2 => Sys2Proof.Machine.execXor dest src1 src2 s
  | .xori dest src imm => Sys2Proof.Machine.execXori dest src imm s
  | .xorf dest src imm => Sys2Proof.Machine.execXorf dest src imm s
  -- shift group (spec/46_shift.md)
  | .bsr dest src amount => Sys2Proof.Machine.execBsr dest src amount s
  | .bsri dest src imm => Sys2Proof.Machine.execBsri dest src imm s
  | .bsrr dest src amount => Sys2Proof.Machine.execBsrr dest src amount s
  | .bsrri dest src imm => Sys2Proof.Machine.execBsrri dest src imm s
  | .bsl dest src amount => Sys2Proof.Machine.execBsl dest src amount s
  | .bsli dest src imm => Sys2Proof.Machine.execBsli dest src imm s
  | .bslr dest src amount => Sys2Proof.Machine.execBslr dest src amount s
  | .bslri dest src imm => Sys2Proof.Machine.execBslri dest src imm s

end Sys2Proof.Machine
end

