-- ==== Sys2Proof/Machine/Fetch.lean ====
section
/-! DEFINITION. Fetching an instruction (spec/20_memory.md R30), what a word that is no instruction does
(spec/30_encoding.md R45, R53, R54), and placing a word where the next step fetches. -/

namespace Sys2Proof.Machine

/-- Fetch at the start of every step (R30): alignment, then range, then the word in little-endian order (R23). Fetch
reads the RAM that loads and stores use, as it is at this step (R33). A byte that holds no value faults (log 2). -/
def fetchWord (s : State) : Except Fault Word :=
  if s.pc.toNat % 4 ≠ 0 then .error (.misalignedFetch s.pc)
  else if s.pc.toNat + 3 > ramLast then .error (.fetchOutOfRange s.pc)
  else
    match Memory.readLE s.mem s.pc.toNat 4 with
    | some insn => .ok insn
    | none => .error (.unwrittenFetch s.pc)

/-- A word the decoder rejects: `raise Fault.IllegalInstruction(pc, insn)` (R53, R54, R152); refused when
`ILLEGAL_IS_FAULT` is false. DESIGN CHOICE of the spec (D10), log 8. A word rejected only for an ignored bit, under
`STRICT_DONT_CARE`, raises the fault (spec/60_exceptions.md R151; D11, log 9). -/
def illegal (c : Config) (why : DecodeError) (insn : Word) (s : State) : Result :=
  if why = .nonCanonical ∨ c.illegalIsFault = true then raise (.illegalInstruction s.pc insn)
  else .refused (.illegalEncoding s.pc insn)

/-- Store an instruction word at the PC in the order fetch reads it (R23). -/
def placeWord (s : State) (insn : Word) : State := s.setMem (Memory.writeLE s.mem s.pc.toNat 4 insn)

end Sys2Proof.Machine
end

