-- ==== Sys2Proof/Machine/Step.lean ====
section
/-! DEFINITION. One step of the one agent, the CPU (spec/00_scope.md R6): fetch, decode, perform. -/

namespace Sys2Proof.Machine

/-- R6: fetch the word at pc, decode it, perform the one instruction it selects. The first check that fails ends the
step (spec/60_exceptions.md R156). -/
def step (s : State) : Host.Outcome State Fault Refusal :=
  orRaise (fetchWord s) fun insn =>
    match decodeWord config insn with
    | .ok i => exec i s
    | .error why => illegal config why insn s

/-- The state with an instruction stored where the next step fetches: its four bytes at the pc, lowest first. The bits
of `w` above `nbits` are zero. -/
def State.withFetchWord (s : State) (nbits w : Nat) : State := placeWord s (BitVec.ofNat 32 (w % 2 ^ nbits))

end Sys2Proof.Machine
end

