-- ==== Sys2Proof/Safety.lean ====
section
/-! DEFINITION. What counts as a safe state and a safe run, the end of a run (spec/70_reset_and_hazards.md R174), and
the terms in which the claims speak of one instruction: its words, its next state, its access, its faults. -/

namespace Sys2Proof.Machine

/-! States and runs. -/

/-- The invariant of RAM: the canonical form, and no byte listed outside 0x00000000 .. 0x000FFFFF. -/
def State.Inv (s : State) : Prop := Memory.wf s.mem = true ∧ Memory.inRam s.mem = true

/-- A state the machine may be in after reset: pc at `RESET_PC`, registers and RAM unspecified (R170, R171). -/
def State.AfterReset (s : State) : Prop := s.pc = config.resetPc

/-- The next step completes. -/
def Safe (s : State) : Prop := ∃ t, step s = .next t

/-- `u` is reached from `s` by `n` completed steps, and `halt` is false in every state passed on the way, `s` among
them; of `u` itself nothing is said. -/
inductive RunsTo (halt : State → Bool) (s : State) : Nat → State → Prop
  | start : RunsTo halt s 0 s
  | next {n : Nat} {u t : State} : RunsTo halt s n u → halt u = false → step u = .next t → RunsTo halt s (n + 1) t

/-- How a run ends (R174), with what the host may read then (R175). -/
inductive RunEnd where
  /-- `HALT(state)` held between two steps. -/
  | halted (final : State)
  /-- A step faulted; the state is the one before that step (spec/60_exceptions.md R150). -/
  | faulted (final : State) (fault : Fault)
  /-- The model gave a step no meaning. -/
  | refused (final : State) (why : Refusal)
  /-- The run was still going after the given number of steps. -/
  | running (final : State)
deriving DecidableEq, Repr

/-- A run of at most `k` steps under the host's predicate `HALT`, which the spec leaves OPEN (R174, D26; log 23): it is
evaluated between steps, and the host changes nothing (R175). DESIGN CHOICE, log 23: it is evaluated in the start state
too, before any step, so a run may halt after no step; R174 says "between two steps" and leaves that point open. A run
whose `k` steps are used up is evaluated once more, in the state it stands in. -/
def runUntil (halt : State → Bool) : Nat → State → RunEnd
  | 0, s => if halt s then .halted s else .running s
  | k + 1, s =>
    if halt s then .halted s
    else
      match step s with
      | .next t => runUntil halt k t
      | .fault f => .faulted s f
      | .refused r => .refused s r

/-! What an instruction may touch. -/

/-- The four instructions that write the PC with something else than the advance (spec/10_state.md R13). -/
def isJump (i : Instr) : Bool :=
  match i.mnemonic with
  | .jmp | .jmpi | .jmpc | .jmpic => true
  | _ => false

/-- Where a jump that is executed goes (spec/40_jmp.md R60, R61, R62); no target for a conditional jump whose control
register is zero, nor for an instruction that is no jump. -/
def jumpTargetOf (i : Instr) (s : State) : Option Word :=
  match i with
  | .jmp base off => some (s.reg base + s.reg off)
  | .jmpi base imm => some (s.reg base + imm.zeroExtend 32)
  | .jmpc base off ctrl => if s.reg ctrl = 0#32 then none else some (s.reg base + s.reg off)
  | .jmpic base imm ctrl => if s.reg ctrl = 0#32 then none else some (s.reg base + imm.zeroExtend 32)
  | _ => none

/-- The access of a load or store: its kind, its width and its effective address (spec/41_st_ld.md R70, R71). -/
def accessOf (i : Instr) (s : State) : Option (AccessKind × Width × Word) :=
  match i with
  | .stb _ base off => some (.store, .byte, s.reg base + s.reg off)
  | .sth _ base off => some (.store, .half, s.reg base + s.reg off)
  | .stw _ base off => some (.store, .word, s.reg base + s.reg off)
  | .stbi _ base imm => some (.store, .byte, s.reg base + imm.zeroExtend 32)
  | .sthi _ base imm => some (.store, .half, s.reg base + imm.zeroExtend 32)
  | .stwi _ base imm => some (.store, .word, s.reg base + imm.zeroExtend 32)
  | .ldb _ base off => some (.load, .byte, s.reg base + s.reg off)
  | .ldh _ base off => some (.load, .half, s.reg base + s.reg off)
  | .ldw _ base off => some (.load, .word, s.reg base + s.reg off)
  | .ldbi _ base imm => some (.load, .byte, s.reg base + imm.zeroExtend 32)
  | .ldhi _ base imm => some (.load, .half, s.reg base + imm.zeroExtend 32)
  | .ldwi _ base imm => some (.load, .word, s.reg base + imm.zeroExtend 32)
  | _ => none

/-- The register a store takes its data from (spec/41_st_ld.md R72). -/
def storedOf (i : Instr) : Option Reg :=
  match i with
  | .stb src _ _ | .sth src _ _ | .stw src _ _ | .stbi src _ _ | .sthi src _ _ | .stwi src _ _ => some src
  | _ => none

/-- The divisor of DIV, DIVI, MOD and MODI (spec/44_arithmetic.md R103). -/
def divisorOf (i : Instr) (s : State) : Option Word :=
  match i with
  | .div _ _ src2 | .mod _ _ src2 => some (s.reg src2)
  | .divi _ _ imm | .modi _ _ imm => some (imm.zeroExtend 32)
  | _ => none

/-- The register an instruction writes (spec/10_state.md R12's table, last column). -/
def destOf (i : Instr) : Option Reg :=
  match i with
  | .jmp .. | .jmpi .. | .jmpc .. | .jmpic .. => none
  | .stb .. | .sth .. | .stw .. | .stbi .. | .sthi .. | .stwi .. => none
  | .ldb dest _ _ | .ldh dest _ _ | .ldw dest _ _ | .ldbi dest _ _ | .ldhi dest _ _ | .ldwi dest _ _ => some dest
  | .set dest _ | .setn dest _ | .setu dest _ => some dest
  | .add dest _ _ | .sub dest _ _ | .mul dest _ _ | .div dest _ _ | .mod dest _ _ => some dest
  | .addi dest _ _ | .subi dest _ _ | .muli dest _ _ | .divi dest _ _ | .modi dest _ _ => some dest
  | .and dest _ _ | .or dest _ _ | .xor dest _ _ => some dest
  | .andi dest _ _ | .ori dest _ _ | .xori dest _ _ | .andf dest _ _ | .orf dest _ _ | .xorf dest _ _ => some dest
  | .bsr dest _ _ | .bsrr dest _ _ | .bsl dest _ _ | .bslr dest _ _ => some dest
  | .bsri dest _ _ | .bsrri dest _ _ | .bsli dest _ _ | .bslri dest _ _ => some dest

/-! What an instruction answers, with its frame. -/

/-- `out` is a next state in which register `dest` holds `v`, the PC is `next_pc` (spec/10_state.md R14's parameter), and every
other register and every byte of RAM is as in `s`. -/
def WritesRegister (out : Result) (s : State) (dest : Reg) (v : Word) : Prop :=
  ∃ t, out = .next t ∧ t.reg dest = v ∧ (∀ r, r ≠ dest → t.reg r = s.reg r) ∧ t.pc = s.pc + config.pcStep ∧
    ∀ a, Memory.read t.mem a = Memory.read s.mem a

/-- `out` is a next state whose PC is `target`, every register and every byte of RAM as in `s`. -/
def SetsPc (out : Result) (s : State) (target : Word) : Prop :=
  ∃ t, out = .next t ∧ t.pc = target ∧ (∀ r, t.reg r = s.reg r) ∧ ∀ a, Memory.read t.mem a = Memory.read s.mem a

/-- `out` is a next state in which the `n` bytes from `ea` hold the `n` low bytes of `v`, the least significant at
`ea`, the PC is `next_pc`, and every other byte of RAM and every register is as in `s`. -/
def StoresBytes (out : Result) (s : State) (ea : Word) (n : Nat) (v : Word) : Prop :=
  ∃ t, out = .next t ∧ (∀ k, k < n → Memory.read t.mem (ea.toNat + k) = some (v.extractLsb' (8 * k) 8)) ∧
    (∀ a, a < ea.toNat ∨ ea.toNat + n ≤ a → Memory.read t.mem a = Memory.read s.mem a) ∧
    t.pc = s.pc + config.pcStep ∧ ∀ r, t.reg r = s.reg r

/-- What a store of width `w` answers at the effective address `ea`: the two faults in their order, else the store of
the low bytes of `v` (spec/20_memory.md R28, spec/41_st_ld.md R72). -/
def StoreAnswers (out : Result) (s : State) (w : Width) (ea v : Word) : Prop :=
  (ea.toNat % w.bytes ≠ 0 → out = .fault (.misalignedAccess s.pc ea w .store)) ∧
  (ea.toNat % w.bytes = 0 → 0x000FFFFF < ea.toNat → out = .fault (.accessOutOfRange s.pc ea w .store)) ∧
  (ea.toNat % w.bytes = 0 → ea.toNat ≤ 0x000FFFFF → StoresBytes out s ea w.bytes v)

/-- The bytes of an access hold the bytes of the word `v`, whose bits above the access are zero. -/
def HoldsBytes (s : State) (ea : Word) (n : Nat) (v : Word) : Prop :=
  (∀ k, k < n → Memory.read s.mem (ea.toNat + k) = some (v.extractLsb' (8 * k) 8)) ∧ v.toNat < 2 ^ (8 * n)

/-- What a load of width `w` answers at the effective address `ea`: the two faults in their order, else, when the bytes
hold `v`, the destination register is `v` (spec/20_memory.md R27, spec/41_st_ld.md R73). -/
def LoadAnswers (out : Result) (s : State) (w : Width) (ea : Word) (dest : Reg) : Prop :=
  (ea.toNat % w.bytes ≠ 0 → out = .fault (.misalignedAccess s.pc ea w .load)) ∧
  (ea.toNat % w.bytes = 0 → 0x000FFFFF < ea.toNat → out = .fault (.accessOutOfRange s.pc ea w .load)) ∧
  (ea.toNat % w.bytes = 0 → ea.toNat ≤ 0x000FFFFF → ∀ v, HoldsBytes s ea w.bytes v → WritesRegister out s dest v)

/-- Why a step that answers the fault `f` at `s` does so (spec/60_exceptions.md R151, with log 2's two kinds; the three
kinds of other parameter settings have no cause). -/
def FaultCause (s : State) : Fault → Prop
  | .misalignedFetch pc => pc = s.pc ∧ s.pc.toNat % 4 ≠ 0
  | .fetchOutOfRange pc => pc = s.pc ∧ s.pc.toNat % 4 = 0 ∧ 0x000FFFFC < s.pc.toNat
  | .unwrittenFetch pc =>
    pc = s.pc ∧ s.pc.toNat % 4 = 0 ∧ s.pc.toNat ≤ 0x000FFFFC ∧ ∃ k, k < 4 ∧ Memory.read s.mem (s.pc.toNat + k) = none
  | .illegalInstruction pc insn =>
    pc = s.pc ∧ fetchWord s = .ok insn ∧ ∃ why, decodeWord config insn = .error why
  | .misalignedAccess pc ea w kind =>
    pc = s.pc ∧ ea.toNat % w.bytes ≠ 0 ∧
      ∃ insn i, fetchWord s = .ok insn ∧ decodeWord config insn = .ok i ∧ accessOf i s = some (kind, w, ea)
  | .accessOutOfRange pc ea w kind =>
    pc = s.pc ∧ ea.toNat % w.bytes = 0 ∧ 0x000FFFFF < ea.toNat ∧
      ∃ insn i, fetchWord s = .ok insn ∧ decodeWord config insn = .ok i ∧ accessOf i s = some (kind, w, ea)
  | .unwrittenRead pc ea w =>
    pc = s.pc ∧ (∃ k, k < w.bytes ∧ Memory.read s.mem (ea.toNat + k) = none) ∧
      ∃ insn i, fetchWord s = .ok insn ∧ decodeWord config insn = .ok i ∧ accessOf i s = some (.load, w, ea)
  | .divideByZero pc =>
    pc = s.pc ∧ ∃ insn i, fetchWord s = .ok insn ∧ decodeWord config insn = .ok i ∧ divisorOf i s = some 0#32
  | .addressCarry .. | .divideOverflow _ | .shiftAmount .. => False

/-! The words of an instruction, by the bit layouts of spec/30_encoding.md: `low` is the op code and control bits, and
`junk` the bits no rule reads (R55). -/

/-- The register field value `n` names (spec/10_state.md R11). -/
def gpr (n : BitVec 3) : Reg := config.regOfField n

/-- Formats M, A and B with a register third operand: every word of the layout decodes so. -/
def DecodesRegM (low : BitVec 7) (f : Reg → Reg → Reg → Instr) : Prop :=
  ∀ (junk : BitVec 16) (n3 n2 n1 : BitVec 3),
    decodeWord config (junk ++ n3 ++ n2 ++ n1 ++ low : BitVec 32) = .ok (f (gpr n1) (gpr n2) (gpr n3))

/-- Formats M, A and B with an immediate. -/
def DecodesImmM (low : BitVec 7) (f : Reg → Reg → BitVec 19 → Instr) : Prop :=
  ∀ (imm : BitVec 19) (n2 n1 : BitVec 3),
    decodeWord config (imm ++ n2 ++ n1 ++ low : BitVec 32) = .ok (f (gpr n1) (gpr n2) imm)

/-- Format H with an amount register. -/
def DecodesRegH (low : BitVec 6) (f : Reg → Reg → Reg → Instr) : Prop :=
  ∀ (junk : BitVec 17) (n3 n2 n1 : BitVec 3),
    decodeWord config (junk ++ n3 ++ n2 ++ n1 ++ low : BitVec 32) = .ok (f (gpr n1) (gpr n2) (gpr n3))

/-- Format H with an immediate amount. -/
def DecodesImmH (low : BitVec 6) (f : Reg → Reg → BitVec 5 → Instr) : Prop :=
  ∀ (junk : BitVec 15) (imm : BitVec 5) (n2 n1 : BitVec 3),
    decodeWord config (junk ++ imm ++ n2 ++ n1 ++ low : BitVec 32) = .ok (f (gpr n1) (gpr n2) imm)

/-! Shifts and rotates, bit by bit (spec/46_shift.md R137). -/

/-- `v[i] = a[i+n]` for i+n ≤ 31, else 0. -/
def ShiftedRight (a : Word) (n : Nat) (v : Word) : Prop :=
  ∀ k, k < 32 → v.getLsbD k = if k + n ≤ 31 then a.getLsbD (k + n) else false

/-- `v[i] = a[(i+n) mod 32]`. -/
def RotatedRight (a : Word) (n : Nat) (v : Word) : Prop := ∀ k, k < 32 → v.getLsbD k = a.getLsbD ((k + n) % 32)

/-- `v[i] = a[i−n]` for i ≥ n, else 0. -/
def ShiftedLeft (a : Word) (n : Nat) (v : Word) : Prop :=
  ∀ k, k < 32 → v.getLsbD k = if n ≤ k then a.getLsbD (k - n) else false

/-- `v[i] = a[(i−n) mod 32]`, for n in 0 .. 31. -/
def RotatedLeft (a : Word) (n : Nat) (v : Word) : Prop := ∀ k, k < 32 → v.getLsbD k = a.getLsbD ((k + 32 - n) % 32)

/-- `q` and `r` are the quotient rounded toward zero and the remainder of `a` by `b` (spec/44_arithmetic.md R103): the
remainder is smaller than the divisor and has the dividend's sign, or is zero. -/
def QuotRem (a b q r : Int) : Prop := a = q * b + r ∧ |r| < |b| ∧ (r = 0 ∨ (0 < r ∧ 0 < a) ∨ (r < 0 ∧ a < 0))

end Sys2Proof.Machine
end

