-- ==== Sys2Proof/Certificates/Slice0/Obligations.lean ====
section
/-! DEFINITION. The statements, each a `def Obligations.<Name> : Prop`. Two conventions of the spec run through most of
them and are its own decisions, not the source's: a 3-bit field value n names R(n+1) (spec/10_state.md R11, D1, log 3;
here `gpr`), and an instruction that is not a taken jump ends with pc + 4 (R14, D3, log 5; here `config.pcStep`).
`FieldValueNamesTheNextRegister` and `OnlyJumpsLeaveTheSequence` say the two values. -/

open Sys2Proof Sys2Proof.Machine

/-! ## Words -/

/-- For every one-to-one register map and every other parameter setting, the strict decoder's too: the decoder reads an
instruction back from its canonical word, every operand at every value its field admits (spec/30_encoding.md R46 to
R52; sections 3 and 4). -/
def Obligations.DecodeOfEncodeIsTheInstruction : Prop :=
  ∀ c : Config, c.regMapOk = true → ∀ i : Instr, decodeWord c (encode c i) = .ok i

/-- The other direction: a word that decodes is the canonical word of its instruction but for the bits that no rule
reads (spec/30_encoding.md R55; that they are ignored is the spec's decision D11, log 9). -/
def Obligations.EncodeOfDecodeClearsIgnoredBits : Prop :=
  ∀ c : Config, c.regMapOk = true → ∀ (w : Word) (i : Instr), decodeWord c w = .ok i →
    encode c i = w &&& ~~~(opcodeRow i.mnemonic).ignored

/-- The decoder by R45's cases and the table by mask and match are the same: a word decodes to an instruction of a
mnemonic exactly when it is that mnemonic's row (spec/30_encoding.md section 4). -/
def Obligations.WordDecodesToItsTableRow : Prop :=
  ∀ (w : Word) (m : Mnemonic), w &&& (opcodeRow m).mask = (opcodeRow m).pattern ↔
    ∃ i, decodeWord config w = .ok i ∧ i.mnemonic = m

/-- The words that are no instruction: op code 111, width 3, arithmetic operation 5 to 7, bitwise operation 3, and no
other (spec/30_encoding.md sections 2 and 5; rejecting them is the spec's decision D10, log 8). -/
def Obligations.IllegalWordsAreTheUnusedCodes : Prop :=
  ∀ w : Word, (∃ why, decodeWord config w = .error why) ↔
    w.extractLsb' 0 3 = 7#3 ∨
    (w.extractLsb' 0 3 = 1#3 ∧ w.extractLsb' 4 2 = 3#2) ∨
    (w.extractLsb' 0 3 = 4#3 ∧ 5 ≤ (w.extractLsb' 3 3).toNat) ∨
    (w.extractLsb' 0 3 = 5#3 ∧ w.extractLsb' 3 2 = 3#2)

/-- Two words that differ only in bits no rule reads decode alike (spec/30_encoding.md section 5, decision D11, log 9). -/
def Obligations.IgnoredBitsChangeNothing : Prop :=
  ∀ (w w' : Word) (i : Instr), decodeWord config w = .ok i →
    (w ^^^ w') &&& ~~~(opcodeRow i.mnemonic).ignored = 0#32 → decodeWord config w' = .ok i

/-- Under `STRICT_DONT_CARE` the decoder keeps exactly the canonical words, and rejects the others by name
(spec/30_encoding.md section 5, decision D11, log 9). -/
def Obligations.StrictDecoderKeepsCanonicalWords : Prop :=
  ∀ (w : Word) (i : Instr), decodeWord config w = .ok i →
    decodeWord { config with strictDontCare := true } w =
      if w &&& (opcodeRow i.mnemonic).ignored = 0#32 then .ok i else .error .nonCanonical

/-- An assembler line stands for an instruction exactly when it is that instruction's line: mnemonic, operands in the
order of its rule, registers by number, immediates as raw unsigned values that fit their field (spec/30_encoding.md
section 6; the operand conventions are the spec's decision D31, log 26). -/
def Obligations.AssemblerLineIsItsInstruction : Prop :=
  ∀ (l : AsmLine) (i : Instr), l.toInstr = some i ↔ i.toAsm = l

/-- Eight words of the spec's rules, one per family and one illegal, read as the spec says (R63, R81, R92, R96, R112,
R125, R146 examples; spec/95_test_vectors.md VD2). -/
def Obligations.ExampleWordsDecode : Prop :=
  decodeWord config 0x00000800#32 = .ok (.jmp .r1 .r2) ∧
  decodeWord config 0x00004589#32 = .ok (.ldb .r4 .r2 .r3) ∧
  decodeWord config 0xFFFFFD9A#32 = .ok (.setn .r2 0x1FFFFFB#25) ∧
  decodeWord config 0x00000A8B#32 = .ok (.setu .r2 0x2A#6) ∧
  decodeWord config 0x0000E45C#32 = .ok (.divi .r1 .r2 7#19) ∧
  decodeWord config 0xFFE00465#32 = .ok (.andf .r1 .r2 0x7FF00#19) ∧
  decodeWord config 0x0001FFFE#32 = .ok (.bslri .r8 .r8 31#5) ∧
  decodeWord config 0xFFFFFFFF#32 = .error .unusedOpCode

/-- A 3-bit field value n names R(n+1), so the eight values name the eight registers one to one (spec/10_state.md
section 1; the spec's decision D1, log 3). -/
def Obligations.FieldValueNamesTheNextRegister : Prop :=
  (∀ n : BitVec 3, (gpr n).number = n.toNat + 1) ∧ ∀ r : Reg, gpr (config.fieldOfReg r) = r

/-! ## The step -/

/-- When the four bytes at an aligned pc in RAM decode to an instruction, the step is that instruction's meaning, run at
the very state (spec/00_scope.md section 5.4). The step adds nothing around it: the instruction itself writes the pc. -/
def Obligations.StepRunsTheDecodedInstruction : Prop :=
  ∀ (s : State) (b0 b1 b2 b3 : Byte) (i : Instr),
    s.pc.toNat % 4 = 0 → s.pc.toNat ≤ 0x000FFFFC →
    Memory.read s.mem s.pc.toNat = some b0 → Memory.read s.mem (s.pc.toNat + 1) = some b1 →
    Memory.read s.mem (s.pc.toNat + 2) = some b2 → Memory.read s.mem (s.pc.toNat + 3) = some b3 →
    decodeWord config (b3 ++ b2 ++ b1 ++ b0 : BitVec 32) = .ok i →
    step s = exec i s

/-- The fetch's checks, alignment first (spec/20_memory.md section 6, decisions D6, D7, D22, log 18). -/
def Obligations.FetchChecksAlignmentThenRange : Prop :=
  ∀ s : State,
    (s.pc.toNat % 4 ≠ 0 → step s = .fault (.misalignedFetch s.pc)) ∧
    (s.pc.toNat % 4 = 0 → 0x000FFFFC < s.pc.toNat → step s = .fault (.fetchOutOfRange s.pc))

/-- A fetched word that is no instruction raises the illegal-instruction fault with the pc and the word
(spec/60_exceptions.md section 2, decision D10, log 8). -/
def Obligations.IllegalWordFaultsAtDecode : Prop :=
  ∀ (s : State) (insn : Word), fetchWord s = .ok insn →
    (insn.extractLsb' 0 3 = 7#3 ∨ (insn.extractLsb' 0 3 = 1#3 ∧ insn.extractLsb' 4 2 = 3#2) ∨
      (insn.extractLsb' 0 3 = 4#3 ∧ 5 ≤ (insn.extractLsb' 3 3).toNat) ∨
      (insn.extractLsb' 0 3 = 5#3 ∧ insn.extractLsb' 3 2 = 3#2)) →
    step s = .fault (.illegalInstruction s.pc insn)

/-- Every fault a step answers has its cause, as spec/60_exceptions.md section 2's table gives it (decision D20, log 19),
reports the pc of the faulting instruction, and is of one of the six kinds or of log 2's two. -/
def Obligations.EveryFaultHasItsCause : Prop :=
  ∀ (s : State) (f : Fault), step s = .fault f → FaultCause s f

/-- No step is refused: it completes or faults. Both halves rest on choices of the spec that the model follows, not on
its source: that a step has these two outcomes is decision D20 (spec/60_exceptions.md section 1, log 19), and that a word
that is no instruction faults and is not refused is decision D10 (spec/30_encoding.md section 5, `ILLEGAL_IS_FAULT`,
log 8). -/
def Obligations.NoStepIsRefused : Prop :=
  ∀ (s : State) (r : Refusal), step s ≠ .refused r

/-- What ends a run of at most k steps. One that faults ends after fewer than k completed steps, in the state before the
faulting step (spec/60_exceptions.md sections 1 and 3, decisions D20 and D29, log 19); one that halts ends after at most
k, in the first state where `HALT` holds; one that is still running has made k. In every state passed before the end
`HALT` is false (spec/70_reset_and_hazards.md section 3, decision D26, log 23). The start state counts as one of the
states: that `HALT` is evaluated there too is the model's choice (log 23). -/
def Obligations.RunsEndInReachedStates : Prop :=
  ∀ (halt : State → Bool) (k : Nat) (s u : State),
    (∀ f, runUntil halt k s = .faulted u f → halt u = false ∧ step u = .fault f ∧ ∃ n, n < k ∧ RunsTo halt s n u) ∧
    (runUntil halt k s = .halted u → halt u = true ∧ ∃ n, n ≤ k ∧ RunsTo halt s n u) ∧
    (runUntil halt k s = .running u → halt u = false ∧ RunsTo halt s k u)

/-- Every step keeps RAM in its canonical form and lists no byte outside RAM, from every state that has it, reached or
not. -/
def Obligations.StepKeepsMemoryInvariant : Prop :=
  ∀ s t : State, s.Inv → step s = .next t → t.Inv

/-- The state after reset has the invariant. -/
def Obligations.ResetHasMemoryInvariant : Prop := State.reset.Inv

/-- Whatever image inside RAM, entry point and register values the host chooses, the machine it prepares has the
invariant, and holds the last byte the image gives for each address (spec/70_reset_and_hazards.md section 2, decision
D25, log 22). -/
def Obligations.BootHasMemoryInvariant : Prop :=
  ∀ (entry : Word) (regs : Regs) (image : List Host.Cell), imageOk image = true →
    (State.boot entry regs image).Inv ∧
    ∀ (a : Nat) (b : Byte) (before after : List Host.Cell), image = before ++ (a, b) :: after →
      (∀ c ∈ after, c.1 ≠ a) → Memory.read (State.boot entry regs image).mem a = some b

/-- After reset the pc is 0x00000000 (spec/70_reset_and_hazards.md section 1, decision D23, log 21) and no byte of RAM
holds a value (log 2). Nothing is said of the registers: their reset values are log 1's choice. -/
def Obligations.ResetPcIsZero : Prop :=
  State.reset.pc = 0x00000000#32 ∧ ∀ a, Memory.read State.reset.mem a = none

/-- A byte that holds a value holds one after every step: the faults of log 2 come only from bytes that neither the host
nor a store has written. The model's choice. -/
def Obligations.WrittenBytesStayWritten : Prop :=
  ∀ (s t : State) (a : Nat), step s = .next t → (Memory.read s.mem a).isSome = true →
    (Memory.read t.mem a).isSome = true

/-! ## Frames over all instructions -/

/-- An access is performed only at an address that is a multiple of its width, which for a byte is any address, and a
fetch only at a multiple of 4 (spec/20_memory.md R25). -/
def Obligations.OnlyAlignedAccessesComplete : Prop :=
  (∀ s t : State, step s = .next t → s.pc.toNat % 4 = 0) ∧
  (∀ (i : Instr) (s t : State) (kind : AccessKind) (w : Width) (ea : Word), exec i s = .next t →
    accessOf i s = some (kind, w, ea) → ea.toNat % w.bytes = 0) ∧
  ∀ (i : Instr) (s : State) (pc ea : Word) (kind : AccessKind), exec i s ≠ .fault (.misalignedAccess pc ea .byte kind)

/-- No instruction other than the four jumps makes pc differ from the fetch address plus 4 (spec/10_state.md section 2,
decision D3, log 5; spec/95_test_vectors.md part 4). -/
def Obligations.OnlyJumpsLeaveTheSequence : Prop :=
  ∀ (i : Instr) (s t : State), isJump i = false → exec i s = .next t → t.pc = s.pc + 4#32

/-- An instruction changes no register but the destination its row of spec/10_state.md section 1's table names; a jump
or a store changes none. -/
def Obligations.OnlyTheDestinationRegisterChanges : Prop :=
  ∀ (i : Instr) (s t : State) (r : Reg), exec i s = .next t → destOf i ≠ some r → t.reg r = s.reg r

/-- RAM changes only in the bytes a store stores to: every other byte, and every byte when the instruction is no store,
reads as before (spec/20_memory.md section 4). -/
def Obligations.OnlyStoredBytesChange : Prop :=
  ∀ (i : Instr) (s t : State) (a : Nat), exec i s = .next t →
    (∀ (w : Width) (ea : Word), accessOf i s = some (.store, w, ea) → a < ea.toNat ∨ ea.toNat + w.bytes ≤ a) →
    Memory.read t.mem a = Memory.read s.mem a

/-- No instruction can read the PC (spec/10_state.md section 2): moved to another pc, an instruction that completes
completes, with the same registers and RAM, and its pc is the same jump target or the advance from the other pc. -/
def Obligations.NoInstructionReadsThePc : Prop :=
  ∀ (i : Instr) (s t : State) (p : Word), exec i s = .next t →
    ∃ u, exec i (s.setPc p) = .next u ∧ u.regs = t.regs ∧ u.mem = t.mem ∧
      (u.pc = t.pc ∨ (t.pc = s.pc + 4#32 ∧ u.pc = p + 4#32))

/-! ## JMP group -/

/-- JMP and JMPI (spec/40_jmp.md R63, R64): their words, and the pc is the base register plus the offset register or the
21-bit immediate, modulo 2^32; no register and no byte of RAM changes. The scale of the immediate, 1, is the spec's
default (D12, log 10). -/
def Obligations.JumpSetsPcToBasePlusOffset : Prop :=
  (∀ (junk : BitVec 18) (off junk' base : BitVec 3),
    decodeWord config (junk ++ off ++ junk' ++ base ++ 0b00000#5 : BitVec 32) = .ok (.jmp (gpr base) (gpr off))) ∧
  (∀ (imm : BitVec 21) (junk' base : BitVec 3),
    decodeWord config (imm ++ junk' ++ base ++ 0b01000#5 : BitVec 32) = .ok (.jmpi (gpr base) imm)) ∧
  (∀ (base off : Reg) (s : State), SetsPc (exec (.jmp base off) s) s
    (BitVec.ofNat 32 ((s.reg base).toNat + (s.reg off).toNat))) ∧
  (∀ (base : Reg) (imm : BitVec 21) (s : State), SetsPc (exec (.jmpi base imm) s) s
    (BitVec.ofNat 32 ((s.reg base).toNat + imm.toNat)))

/-- JMPC and JMPIC (spec/40_jmp.md sections 1 and 2): their words, and the pc is the jump's target when the control
register is not zero, else the advance. Choices of the spec that the model follows: the polarity (D13, log 11), and in
the target the sum modulo 2^32 (D8, log 6), the zero extension of JMPIC's immediate (D9, log 7) and its scale 1 (D12,
log 10). -/
def Obligations.ConditionalJumpTestsItsControlRegister : Prop :=
  (∀ (junk : BitVec 18) (off ctrl base : BitVec 3),
    decodeWord config (junk ++ off ++ ctrl ++ base ++ 0b10000#5 : BitVec 32) =
      .ok (.jmpc (gpr base) (gpr off) (gpr ctrl))) ∧
  (∀ (imm : BitVec 21) (ctrl base : BitVec 3),
    decodeWord config (imm ++ ctrl ++ base ++ 0b11000#5 : BitVec 32) = .ok (.jmpic (gpr base) imm (gpr ctrl))) ∧
  (∀ (base off ctrl : Reg) (s : State), SetsPc (exec (.jmpc base off ctrl) s) s
    (if s.reg ctrl = 0#32 then s.pc + 4#32 else BitVec.ofNat 32 ((s.reg base).toNat + (s.reg off).toNat))) ∧
  (∀ (base ctrl : Reg) (imm : BitVec 21) (s : State), SetsPc (exec (.jmpic base imm ctrl) s) s
    (if s.reg ctrl = 0#32 then s.pc + 4#32 else BitVec.ofNat 32 ((s.reg base).toNat + imm.toNat)))

/-- A jump to a bad target, JMP, JMPI, or JMPC and JMPIC when taken, completes and writes the pc, and the fault is raised
by the next fetch, with the target as its pc (spec/40_jmp.md section 1). That the jump itself does not fault is the
spec's decision D35 (log 27); the target is formed by D8, D9 and D12 (logs 6, 7, 10), taken by D13 (log 11), and the
two faults are D6's and D7's (log 18). -/
def Obligations.BadJumpTargetFaultsAtTheNextFetch : Prop :=
  ∀ (i : Instr) (s : State) (target : Word), jumpTargetOf i s = some target →
    (target.toNat % 4 ≠ 0 →
      ∃ t, exec i s = .next t ∧ t.pc = target ∧ step t = .fault (.misalignedFetch target)) ∧
    (target.toNat % 4 = 0 → 0x000FFFFC < target.toNat →
      ∃ t, exec i s = .next t ∧ t.pc = target ∧ step t = .fault (.fetchOutOfRange target))

/-- If an instruction fetched at the last word of RAM completes and is no taken jump (a JMPC or JMPIC whose control
register is zero is none), then it leaves pc = 0x00100000, and the next fetch is out of range (spec/10_state.md
section 2; decisions D3, D13 and D35, logs 5, 11 and 27). -/
def Obligations.RunningOffTheEndOfRamFaults : Prop :=
  ∀ (i : Instr) (s t : State), jumpTargetOf i s = none → s.pc = 0x000FFFFC#32 → exec i s = .next t →
    t.pc = 0x00100000#32 ∧ step t = .fault (.fetchOutOfRange 0x00100000#32)

/-! ## ST / LD group -/

/-- STB, STH and STW (spec/41_st_ld.md R75, R76, R77): their words, and at base plus offset register the two faults in
their order or the store of the 1, 2 or 4 low bytes of the source register. -/
def Obligations.RegisterStoresStoreLowBytes : Prop :=
  DecodesRegM 0b0000001#7 .stb ∧ DecodesRegM 0b0010001#7 .sth ∧ DecodesRegM 0b0100001#7 .stw ∧
  ∀ (src base off : Reg) (s : State),
    StoreAnswers (exec (.stb src base off) s) s .byte (s.reg base + s.reg off) (s.reg src) ∧
    StoreAnswers (exec (.sth src base off) s) s .half (s.reg base + s.reg off) (s.reg src) ∧
    StoreAnswers (exec (.stw src base off) s) s .word (s.reg base + s.reg off) (s.reg src)

/-- STBI, STHI and STWI (spec/41_st_ld.md R78, R79, R80): as the register forms, the offset the 19-bit immediate,
unsigned and not scaled. -/
def Obligations.ImmediateStoresStoreLowBytes : Prop :=
  DecodesImmM 0b1000001#7 .stbi ∧ DecodesImmM 0b1010001#7 .sthi ∧ DecodesImmM 0b1100001#7 .stwi ∧
  ∀ (src base : Reg) (imm : BitVec 19) (s : State),
    StoreAnswers (exec (.stbi src base imm) s) s .byte (s.reg base + imm.zeroExtend 32) (s.reg src) ∧
    StoreAnswers (exec (.sthi src base imm) s) s .half (s.reg base + imm.zeroExtend 32) (s.reg src) ∧
    StoreAnswers (exec (.stwi src base imm) s) s .word (s.reg base + imm.zeroExtend 32) (s.reg src)

/-- LDB, LDH and LDW (spec/41_st_ld.md R81, R82, R83): their words, and at base plus offset register the two faults in
their order or the bytes that are there, zero-filled above them (R73), in the destination. Said for bytes that hold a
value (log 2). -/
def Obligations.RegisterLoadsZeroFill : Prop :=
  DecodesRegM 0b0001001#7 .ldb ∧ DecodesRegM 0b0011001#7 .ldh ∧ DecodesRegM 0b0101001#7 .ldw ∧
  ∀ (dest base off : Reg) (s : State),
    LoadAnswers (exec (.ldb dest base off) s) s .byte (s.reg base + s.reg off) dest ∧
    LoadAnswers (exec (.ldh dest base off) s) s .half (s.reg base + s.reg off) dest ∧
    LoadAnswers (exec (.ldw dest base off) s) s .word (s.reg base + s.reg off) dest

/-- LDBI, LDHI and LDWI (spec/41_st_ld.md R84, R85, R86): as the register forms, the offset the 19-bit immediate. -/
def Obligations.ImmediateLoadsZeroFill : Prop :=
  DecodesImmM 0b1001001#7 .ldbi ∧ DecodesImmM 0b1011001#7 .ldhi ∧ DecodesImmM 0b1101001#7 .ldwi ∧
  ∀ (dest base : Reg) (imm : BitVec 19) (s : State),
    LoadAnswers (exec (.ldbi dest base imm) s) s .byte (s.reg base + imm.zeroExtend 32) dest ∧
    LoadAnswers (exec (.ldhi dest base imm) s) s .half (s.reg base + imm.zeroExtend 32) dest ∧
    LoadAnswers (exec (.ldwi dest base imm) s) s .word (s.reg base + imm.zeroExtend 32) dest

/-- Every load that completes leaves in its destination what `MemRead` read, a number below 2^(8n) for n bytes, so with
zeros above the bytes: no load extends a sign (spec/41_st_ld.md R73). -/
def Obligations.LoadsZeroFillAboveTheBytesRead : Prop :=
  ∀ (i : Instr) (s t : State) (w : Width) (ea : Word), exec i s = .next t → accessOf i s = some (.load, w, ea) →
    ∃ dest v, destOf i = some dest ∧ memRead s ea w = .ok v ∧ v.toNat < 2 ^ (8 * w.bytes) ∧ t.reg dest = v

/-- A fetch or a load of a byte that nothing has written faults. The model's choice among the treatments
spec/70_reset_and_hazards.md section 1 offers (decision D24, log 2). -/
def Obligations.UnwrittenBytesFault : Prop :=
  (∀ (s : State) (k : Nat), s.pc.toNat % 4 = 0 → s.pc.toNat ≤ 0x000FFFFC → k < 4 →
    Memory.read s.mem (s.pc.toNat + k) = none → step s = .fault (.unwrittenFetch s.pc)) ∧
  ∀ (s : State) (ea : Word) (w : Width) (k : Nat), ea.toNat % w.bytes = 0 → ea.toNat ≤ 0x000FFFFF → k < w.bytes →
    Memory.read s.mem (ea.toNat + k) = none → memRead s ea w = .error (.unwrittenRead s.pc ea w)

/-- If a store completes, then a load of the same width from the same address, each in its register or its immediate
form and through any registers, completes and writes the low bytes of what was stored, zero-extended
(spec/41_st_ld.md section 1, spec/95_test_vectors.md part 4). That the low bytes of the register are the part stored is
the spec's decision D19 (log 17). -/
def Obligations.StoreThenLoadReturnsTheLowBytes : Prop :=
  ∀ (i j : Instr) (s t : State) (w : Width) (ea : Word) (src dest : Reg),
    exec i s = .next t → accessOf i s = some (.store, w, ea) → storedOf i = some src →
    accessOf j t = some (.load, w, ea) → destOf j = some dest →
    WritesRegister (exec j t) t dest (BitVec.ofNat 32 ((s.reg src).toNat % 2 ^ (8 * w.bytes)))

/-- After a word is written, each of its four bytes and both of its half-words read as the little-endian order says
(spec/20_memory.md section 2, from its byte order, log 28). -/
def Obligations.MixedWidthReadsSeeTheSameBytes : Prop :=
  ∀ (s t : State) (a v : Word), memWrite s a .word v = .ok t →
    memRead t a .byte = .ok ((v.extractLsb' 0 8).zeroExtend 32) ∧
    memRead t (a + 1#32) .byte = .ok ((v.extractLsb' 8 8).zeroExtend 32) ∧
    memRead t (a + 2#32) .byte = .ok ((v.extractLsb' 16 8).zeroExtend 32) ∧
    memRead t (a + 3#32) .byte = .ok ((v.extractLsb' 24 8).zeroExtend 32) ∧
    memRead t a .half = .ok ((v.extractLsb' 0 16).zeroExtend 32) ∧
    memRead t (a + 2#32) .half = .ok ((v.extractLsb' 16 16).zeroExtend 32)

/-- A word stored at the address of the next instruction is the word the next step fetches: fetch is coherent with
stores (spec/20_memory.md section 9, decision D28, log 24). -/
def Obligations.StoreIsSeenByTheNextFetch : Prop :=
  ∀ (src base off : Reg) (s t : State), exec (.stw src base off) s = .next t → s.reg base + s.reg off = s.pc + 4#32 →
    fetchWord t = .ok (s.reg src)

/-! ## SET group and SETU -/

/-- SET and SETN (spec/42_set.md R90, R91, R92): their words; all 32 bits of the destination are written, bits 24..0
with the value field and bits 31..25 with zeros or with ones, whatever the register held; and the values so written
are, read signed, exactly −2^25 .. 2^25 − 1. -/
def Obligations.SetWritesTheWholeRegister : Prop :=
  (∀ (val : BitVec 25) (dest : BitVec 3),
    decodeWord config (val ++ dest ++ 0b0010#4 : BitVec 32) = .ok (.set (gpr dest) val) ∧
    decodeWord config (val ++ dest ++ 0b1010#4 : BitVec 32) = .ok (.setn (gpr dest) val)) ∧
  (∀ (dest : Reg) (val : BitVec 25) (s : State),
    WritesRegister (exec (.set dest val) s) s dest (0b0000000#7 ++ val : BitVec 32) ∧
    WritesRegister (exec (.setn dest val) s) s dest (0b1111111#7 ++ val : BitVec 32)) ∧
  ∀ v : Int, (-2 ^ 25 ≤ v ∧ v < 2 ^ 25) ↔
    ∃ val : BitVec 25, (0b0000000#7 ++ val : BitVec 32).toInt = v ∨ (0b1111111#7 ++ val : BitVec 32).toInt = v

/-- SETU (spec/43_setu.md R96): its words, whatever `insn[31:12]` holds, and bits 30..25 of the destination receive the
value, bit 31 and bits 24..0 keep theirs. -/
def Obligations.SetuWritesBits30To25 : Prop :=
  (∀ (junk : BitVec 20) (val : BitVec 6) (dest : BitVec 3),
    decodeWord config (junk ++ val ++ dest ++ 0b011#3 : BitVec 32) = .ok (.setu (gpr dest) val)) ∧
  ∀ (dest : Reg) (val : BitVec 6) (s : State),
    WritesRegister (exec (.setu dest val) s) s dest
      (((s.reg dest).extractLsb' 31 1 ++ val ++ (s.reg dest).extractLsb' 0 25 : BitVec 32)) ∧
    ((s.reg dest).extractLsb' 31 1 ++ val ++ (s.reg dest).extractLsb' 0 25 : BitVec 32) =
      (s.reg dest &&& 0x81FFFFFF#32) ||| (val.zeroExtend 32 <<< 25)

/-- SET or SETN and then SETU build any 32-bit value in two steps: SETN when its bit 31 is one (spec/30_encoding.md
section 6, spec/95_test_vectors.md EX9). That SETN must supply bit 31, because SETU writes six bits and keeps bit 31, is
the spec's choice among the source's four descriptions (decision D30, conflict C1, log 25). -/
def Obligations.TwoStepsBuildAnyConstant : Prop :=
  ∀ (value : Word) (dest : Reg) (s : State),
    ∃ t u, exec (if value.getLsbD 31 then .setn dest (value.extractLsb' 0 25) else .set dest (value.extractLsb' 0 25)) s
        = .next t ∧
      exec (.setu dest (value.extractLsb' 25 6)) t = .next u ∧ WritesRegister (.next u) (s.setPc (s.pc + 4#32)) dest value

/-! ## Arithmetic group -/

/-- ADD and ADDI (spec/44_arithmetic.md R105, R106): their words, and the destination is the sum modulo 2^32. -/
def Obligations.AddIsTheSumModulo : Prop :=
  DecodesRegM 0b0000100#7 .add ∧ DecodesImmM 0b1000100#7 .addi ∧
  (∀ (dest src1 src2 : Reg) (s : State), WritesRegister (exec (.add dest src1 src2) s) s dest
    (BitVec.ofNat 32 ((s.reg src1).toNat + (s.reg src2).toNat))) ∧
  (∀ (dest src : Reg) (imm : BitVec 19) (s : State), WritesRegister (exec (.addi dest src imm) s) s dest
    (BitVec.ofNat 32 ((s.reg src).toNat + imm.toNat)))

/-- SUB and SUBI (spec/44_arithmetic.md R107, R108): their words, and the destination is the first operand minus the
second, modulo 2^32. -/
def Obligations.SubIsTheDifferenceModulo : Prop :=
  DecodesRegM 0b0001100#7 .sub ∧ DecodesImmM 0b1001100#7 .subi ∧
  (∀ (dest src1 src2 : Reg) (s : State), WritesRegister (exec (.sub dest src1 src2) s) s dest
    (BitVec.ofInt 32 ((s.reg src1).toNat - (s.reg src2).toNat : Int))) ∧
  (∀ (dest src : Reg) (imm : BitVec 19) (s : State), WritesRegister (exec (.subi dest src imm) s) s dest
    (BitVec.ofInt 32 ((s.reg src).toNat - imm.toNat : Int)))

/-- MUL and MULI (spec/44_arithmetic.md R109, R110): their words, and the destination is the low 32 bits of the
product. -/
def Obligations.MulIsTheLowWordOfTheProduct : Prop :=
  DecodesRegM 0b0010100#7 .mul ∧ DecodesImmM 0b1010100#7 .muli ∧
  (∀ (dest src1 src2 : Reg) (s : State), WritesRegister (exec (.mul dest src1 src2) s) s dest
    (BitVec.ofNat 32 ((s.reg src1).toNat * (s.reg src2).toNat))) ∧
  (∀ (dest src : Reg) (imm : BitVec 19) (s : State), WritesRegister (exec (.muli dest src imm) s) s dest
    (BitVec.ofNat 32 ((s.reg src).toNat * imm.toNat)))

/-- ADD, SUB and MUL do not depend on whether their operands are read signed or unsigned (spec/44_arithmetic.md section
1, decision D14, log 12). -/
def Obligations.SignednessDoesNotMatterForAddSubMul : Prop :=
  ∀ (dest src1 src2 : Reg) (s : State),
    WritesRegister (exec (.add dest src1 src2) s) s dest
      (BitVec.ofInt 32 ((s.reg src1).toInt + (s.reg src2).toInt)) ∧
    WritesRegister (exec (.sub dest src1 src2) s) s dest
      (BitVec.ofInt 32 ((s.reg src1).toInt - (s.reg src2).toInt)) ∧
    WritesRegister (exec (.mul dest src1 src2) s) s dest
      (BitVec.ofInt 32 ((s.reg src1).toInt * (s.reg src2).toInt))

/-- DIV and MOD with a divisor that is not zero (spec/44_arithmetic.md sections 1 and 2): their words; the operands are
read signed, the quotient is rounded toward zero, the remainder has the dividend's sign, and each is reduced modulo
2^32. Signedness and rounding are the spec's decision D15 (log 13), the wrap of its one overflow D17 (log 15). -/
def Obligations.DivAndModAreSignedTowardZero : Prop :=
  DecodesRegM 0b0011100#7 .div ∧ DecodesRegM 0b0100100#7 .mod ∧
  ∀ (dest src1 src2 : Reg) (s : State), s.reg src2 ≠ 0#32 →
    ∃ q r : Int, QuotRem (s.reg src1).toInt (s.reg src2).toInt q r ∧
      WritesRegister (exec (.div dest src1 src2) s) s dest (BitVec.ofInt 32 q) ∧
      WritesRegister (exec (.mod dest src1 src2) s) s dest (BitVec.ofInt 32 r)

/-- DIVI and MODI with an immediate that is not zero: as DIV and MOD, the divisor in 1 .. 524 287 (spec/44_arithmetic.md
sections 1 and 2, decision D15, log 13). -/
def Obligations.DiviAndModiAreSignedTowardZero : Prop :=
  DecodesImmM 0b1011100#7 .divi ∧ DecodesImmM 0b1100100#7 .modi ∧
  ∀ (dest src : Reg) (imm : BitVec 19) (s : State), imm ≠ 0#19 →
    ∃ q r : Int, QuotRem (s.reg src).toInt imm.toNat q r ∧
      WritesRegister (exec (.divi dest src imm) s) s dest (BitVec.ofInt 32 q) ∧
      WritesRegister (exec (.modi dest src imm) s) s dest (BitVec.ofInt 32 r)

/-- A zero divisor faults, in all four, whatever the dividend (spec/60_exceptions.md section 2, decision D16, log 14). -/
def Obligations.ZeroDivisorFaults : Prop :=
  ∀ (dest src1 src2 : Reg) (s : State),
    (s.reg src2 = 0#32 → exec (.div dest src1 src2) s = .fault (.divideByZero s.pc) ∧
      exec (.mod dest src1 src2) s = .fault (.divideByZero s.pc)) ∧
    exec (.divi dest src1 0#19) s = .fault (.divideByZero s.pc) ∧
    exec (.modi dest src1 0#19) s = .fault (.divideByZero s.pc)

/-- The signed and the unsigned setting of `DIVMOD_SIGNED` agree whenever both operands are below 0x80000000
(spec/44_arithmetic.md section 1, decision D15, log 13). -/
def Obligations.SignedAndUnsignedDivisionAgreeOnSmallOperands : Prop :=
  ∀ (pc a b : Word), b ≠ 0#32 → a.toNat < 2 ^ 31 → b.toNat < 2 ^ 31 →
    quotient { config with divmodSigned := false } pc a b = quotient config pc a b ∧
    remainder { config with divmodSigned := false } pc a b = remainder config pc a b

/-- Quotient times divisor plus remainder is the dividend modulo 2^32, for the results DIV and MOD leave in two
registers (spec/95_test_vectors.md part 4). -/
def Obligations.QuotientAndRemainderRebuildTheDividend : Prop :=
  ∀ (d e src1 src2 : Reg) (s t u : State), exec (.div d src1 src2) s = .next t → exec (.mod e src1 src2) s = .next u →
    t.reg d * s.reg src2 + u.reg e = s.reg src1

/-! ## Bitwise group -/

/-- AND, OR and XOR (spec/45_bitwise.md sections 1 to 4): their words, F and the upper bits of the third field ignored
(decision D11, log 9), and each bit of the destination is the operation on the two sources' bits. -/
def Obligations.BitwiseRegisterFormsCombineBits : Prop :=
  DecodesRegM 0b0000101#7 .and ∧ DecodesRegM 0b1000101#7 .and ∧
  DecodesRegM 0b0001101#7 .or ∧ DecodesRegM 0b1001101#7 .or ∧
  DecodesRegM 0b0010101#7 .xor ∧ DecodesRegM 0b1010101#7 .xor ∧
  ∀ (dest src1 src2 : Reg) (s : State),
    (∃ v, WritesRegister (exec (.and dest src1 src2) s) s dest v ∧
      ∀ k, v.getLsbD k = ((s.reg src1).getLsbD k && (s.reg src2).getLsbD k)) ∧
    (∃ v, WritesRegister (exec (.or dest src1 src2) s) s dest v ∧
      ∀ k, v.getLsbD k = ((s.reg src1).getLsbD k || (s.reg src2).getLsbD k)) ∧
    (∃ v, WritesRegister (exec (.xor dest src1 src2) s) s dest v ∧
      ∀ k, v.getLsbD k = ((s.reg src1).getLsbD k != (s.reg src2).getLsbD k))

/-- ANDI, ANDF, ORI, ORF, XORI and XORF (spec/45_bitwise.md R124, R125, R127, R128, R130, R131): their words, and the
destination is the operation on the source and on the immediate under zeros, or under ones. -/
def Obligations.BitwiseImmediateFormsFillAbove : Prop :=
  DecodesImmM 0b0100101#7 .andi ∧ DecodesImmM 0b1100101#7 .andf ∧
  DecodesImmM 0b0101101#7 .ori ∧ DecodesImmM 0b1101101#7 .orf ∧
  DecodesImmM 0b0110101#7 .xori ∧ DecodesImmM 0b1110101#7 .xorf ∧
  ∀ (dest src : Reg) (imm : BitVec 19) (s : State),
    WritesRegister (exec (.andi dest src imm) s) s dest (s.reg src &&& (0b0000000000000#13 ++ imm : BitVec 32)) ∧
    WritesRegister (exec (.andf dest src imm) s) s dest (s.reg src &&& (0b1111111111111#13 ++ imm : BitVec 32)) ∧
    WritesRegister (exec (.ori dest src imm) s) s dest (s.reg src ||| (0b0000000000000#13 ++ imm : BitVec 32)) ∧
    WritesRegister (exec (.orf dest src imm) s) s dest (s.reg src ||| (0b1111111111111#13 ++ imm : BitVec 32)) ∧
    WritesRegister (exec (.xori dest src imm) s) s dest (s.reg src ^^^ (0b0000000000000#13 ++ imm : BitVec 32)) ∧
    WritesRegister (exec (.xorf dest src imm) s) s dest (s.reg src ^^^ (0b1111111111111#13 ++ imm : BitVec 32))

/-! ## Shift group -/

/-- The four operations of the group, bit by bit, for amounts 0 .. 31 (spec/46_shift.md R137): zeros enter a shift, a
rotate loses no bit, amount 0 leaves the value, and rotating right by n is rotating left by (32 − n) mod 32. -/
def Obligations.ShiftOperationsBitByBit : Prop :=
  ∀ (a : Word) (n : Nat), n ≤ 31 →
    ShiftedRight a n (shiftRight a n) ∧ RotatedRight a n (rotateRight a n) ∧
    ShiftedLeft a n (shiftLeft a n) ∧ RotatedLeft a n (rotateLeft a n) ∧
    (n = 0 → shiftRight a n = a ∧ rotateRight a n = a ∧ shiftLeft a n = a ∧ rotateLeft a n = a) ∧
    rotateRight a n = rotateLeft a ((32 - n) % 32)

/-- BSR and BSL (spec/46_shift.md section 1's formulas, sections 2 and 3): their words, and the destination is the source
shifted by the low 5 bits of the amount register, zeros entering. The low 5 bits are the spec's decision D18 (log 16). -/
def Obligations.RegisterShiftsZeroFill : Prop :=
  DecodesRegH 0b000110#6 .bsr ∧ DecodesRegH 0b001110#6 .bsl ∧
  ∀ (dest src amount : Reg) (s : State),
    (∃ v, ShiftedRight (s.reg src) ((s.reg amount).toNat % 32) v ∧
      WritesRegister (exec (.bsr dest src amount) s) s dest v) ∧
    (∃ v, ShiftedLeft (s.reg src) ((s.reg amount).toNat % 32) v ∧
      WritesRegister (exec (.bsl dest src amount) s) s dest v)

/-- BSRI and BSLI (spec/46_shift.md R140, R144): their words, and the destination is the source shifted by the 5-bit
immediate, zeros entering. -/
def Obligations.ImmediateShiftsZeroFill : Prop :=
  DecodesImmH 0b010110#6 .bsri ∧ DecodesImmH 0b011110#6 .bsli ∧
  ∀ (dest src : Reg) (imm : BitVec 5) (s : State),
    (∃ v, ShiftedRight (s.reg src) imm.toNat v ∧ WritesRegister (exec (.bsri dest src imm) s) s dest v) ∧
    (∃ v, ShiftedLeft (s.reg src) imm.toNat v ∧ WritesRegister (exec (.bsli dest src imm) s) s dest v)

/-- BSRR and BSLR (spec/46_shift.md R141, R145): their words, and the destination is the source rotated by the low 5 bits
of the amount register. -/
def Obligations.RegisterRotatesWrap : Prop :=
  DecodesRegH 0b100110#6 .bsrr ∧ DecodesRegH 0b101110#6 .bslr ∧
  ∀ (dest src amount : Reg) (s : State),
    (∃ v, RotatedRight (s.reg src) ((s.reg amount).toNat % 32) v ∧
      WritesRegister (exec (.bsrr dest src amount) s) s dest v) ∧
    (∃ v, RotatedLeft (s.reg src) ((s.reg amount).toNat % 32) v ∧
      WritesRegister (exec (.bslr dest src amount) s) s dest v)

/-- BSRRI and BSLRI (spec/46_shift.md R142, R146): their words, and the destination is the source rotated by the 5-bit
immediate. -/
def Obligations.ImmediateRotatesWrap : Prop :=
  DecodesImmH 0b110110#6 .bsrri ∧ DecodesImmH 0b111110#6 .bslri ∧
  ∀ (dest src : Reg) (imm : BitVec 5) (s : State),
    (∃ v, RotatedRight (s.reg src) imm.toNat v ∧ WritesRegister (exec (.bsrri dest src imm) s) s dest v) ∧
    (∃ v, RotatedLeft (s.reg src) imm.toNat v ∧ WritesRegister (exec (.bslri dest src imm) s) s dest v)

/-- Rotating left undoes rotating right by the same amount, and rotating right by n is rotating left by (32 − n) mod 32,
which is the negated 5-bit immediate (spec/46_shift.md section 1, spec/95_test_vectors.md part 4). -/
def Obligations.RotatesUndoOneAnother : Prop :=
  ∀ (dest src : Reg) (imm : BitVec 5) (s t u : State),
    (exec (.bsrri dest src imm) s = .next t → exec (.bslri dest dest imm) t = .next u → u.reg dest = s.reg src) ∧
    exec (.bsrri dest src imm) s = exec (.bslri dest src (-imm)) s

/-! ## Idioms -/

/-- The idioms of spec/30_encoding.md section 6: no-operation, copy, complement, an absolute jump in two steps, and
spinning in place. The two jumps rest on choices of the spec: the immediate is not scaled (D12, log 10) and is
zero-extended (D9, log 7). -/
def Obligations.IdiomsDoWhatTheyAreFor : Prop :=
  (∀ (r : Reg) (s : State), SetsPc (exec (.ori r r 0#19) s) s (s.pc + 4#32)) ∧
  (∀ (dest src : Reg) (s : State), WritesRegister (exec (.ori dest src 0#19) s) s dest (s.reg src)) ∧
  (∀ (dest src : Reg) (s : State), WritesRegister (exec (.xorf dest src 0x7FFFF#19) s) s dest (~~~s.reg src)) ∧
  (∀ (r : Reg) (target : BitVec 21) (s : State), ∃ t u, exec (.set r 0#25) s = .next t ∧
    exec (.jmpi r target) t = .next u ∧ u.pc = target.zeroExtend 32) ∧
  (∀ (r : Reg) (target : BitVec 21) (s : State), s.reg r = 0#32 → s.pc = target.zeroExtend 32 →
    exec (.jmpi r target) s = .next s)
end

