-- ==== Sys2Proof/Laws/Params.lean ====
section
/-! SUPPORT. The setting of the parameters, field by field (spec/00_scope.md R3's defaults), and the register map
(spec/10_state.md R11). -/

namespace Sys2Proof.Machine

@[simp] theorem config_regOfField : config.regOfField = regOfField := rfl
@[simp] theorem config_fieldOfReg : config.fieldOfReg = fieldOfReg := rfl
@[simp] theorem config_pcStep : config.pcStep = 4#32 := rfl
@[simp] theorem config_addrWrap : config.addrWrap = .modulo := rfl
@[simp] theorem config_immExtend : config.immExtend = .zero := rfl
@[simp] theorem config_illegalIsFault : config.illegalIsFault = true := rfl
@[simp] theorem config_strictDontCare : config.strictDontCare = false := rfl
@[simp] theorem config_jmpImmScale : config.jmpImmScale = 1#32 := rfl
@[simp] theorem config_jmpcTakenWhenNonzero : config.jmpcTakenWhenNonzero = true := rfl
@[simp] theorem config_divmodSigned : config.divmodSigned = true := rfl
@[simp] theorem config_divByZero : config.divByZero = .fault := rfl
@[simp] theorem config_divOverflow : config.divOverflow = .wrap := rfl
@[simp] theorem config_shiftAmountMode : config.shiftAmountMode = .mod32 := rfl
@[simp] theorem config_resetPc : config.resetPc = 0#32 := rfl

/-- What `Config.regMapOk` says: the two directions of the register map undo one another. -/
theorem regMapOk_iff (c : Config) : c.regMapOk = true ↔
    (∀ r, c.regOfField (c.fieldOfReg r) = r) ∧ ∀ n, c.fieldOfReg (c.regOfField n) = n := by
  constructor
  · intro h
    simp only [Config.regMapOk, Bool.and_eq_true, List.all_eq_true, List.mem_range, beq_iff_eq] at h
    refine ⟨fun r => h.1 r (by cases r <;> simp [Reg.all]), fun n => ?_⟩
    simpa using h.2 n.toNat n.isLt
  · intro h
    simp [Config.regMapOk, h.1, h.2]

theorem config_regMapOk : config.regMapOk = true := by decide

@[simp] theorem regOfField_fieldOfReg (r : Reg) : regOfField (fieldOfReg r) = r := by cases r <;> rfl

@[simp] theorem fieldOfReg_regOfField (n : BitVec 3) : fieldOfReg (regOfField n) = n :=
  ((regMapOk_iff config).1 config_regMapOk).2 n

end Sys2Proof.Machine
end

