-- ==== Sys2Proof/Laws/Decode.lean ====
section
/-! SUPPORT. The fields of a word laid out by a format, and a word put together again from its fields. Stated for the
layouts of spec/30_encoding.md R46 to R52, whatever the fields hold. -/

namespace Sys2Proof

/-- A word of format H's or format U's widths, every field free. -/
def layoutH (junk : BitVec 15) (src2 : BitVec 5) (rs1 rd : BitVec 3) (low : BitVec 6) : Word :=
  junk ++ src2 ++ rs1 ++ rd ++ low

def layoutU (junk : BitVec 20) (val : BitVec 6) (rd low : BitVec 3) : Word := junk ++ val ++ rd ++ low

theorem wordH_eq (src2 : BitVec 5) (rs1 rd : BitVec 3) (low : BitVec 6) :
    wordH src2 rs1 rd low = layoutH 0#15 src2 rs1 rd low := rfl

theorem wordU_eq (val : BitVec 6) (rd low : BitVec 3) : wordU val rd low = layoutU 0#20 val rd low := rfl

/-! The bits of each layout. -/

theorem getLsbD_wordJ (a : BitVec 21) (b c : BitVec 3) (d : BitVec 5) (i : Nat) : (wordJ a b c d).getLsbD i =
    if i < 5 then d.getLsbD i else if i < 8 then c.getLsbD (i - 5) else if i < 11 then b.getLsbD (i - 8)
    else a.getLsbD (i - 11) := by
  simp only [wordJ, BitVec.getLsbD_append]
  grind

theorem getLsbD_wordM (a : BitVec 19) (b c : BitVec 3) (d : BitVec 7) (i : Nat) : (wordM a b c d).getLsbD i =
    if i < 7 then d.getLsbD i else if i < 10 then c.getLsbD (i - 7) else if i < 13 then b.getLsbD (i - 10)
    else a.getLsbD (i - 13) := by
  simp only [wordM, BitVec.getLsbD_append]
  grind

theorem getLsbD_wordS (a : BitVec 25) (b : BitVec 3) (c : BitVec 4) (i : Nat) : (wordS a b c).getLsbD i =
    if i < 4 then c.getLsbD i else if i < 7 then b.getLsbD (i - 4) else a.getLsbD (i - 7) := by
  simp only [wordS, BitVec.getLsbD_append]
  grind

theorem getLsbD_layoutU (j : BitVec 20) (a : BitVec 6) (b c : BitVec 3) (i : Nat) : (layoutU j a b c).getLsbD i =
    if i < 3 then c.getLsbD i else if i < 6 then b.getLsbD (i - 3) else if i < 12 then a.getLsbD (i - 6)
    else j.getLsbD (i - 12) := by
  simp only [layoutU, BitVec.getLsbD_append]
  grind

theorem getLsbD_layoutH (j : BitVec 15) (a : BitVec 5) (b c : BitVec 3) (d : BitVec 6) (i : Nat) :
    (layoutH j a b c d).getLsbD i =
    if i < 6 then d.getLsbD i else if i < 9 then c.getLsbD (i - 6) else if i < 12 then b.getLsbD (i - 9)
    else if i < 17 then a.getLsbD (i - 12) else j.getLsbD (i - 17) := by
  simp only [layoutH, BitVec.getLsbD_append]
  grind

theorem getLsbD_field (w : Word) (lo n i : Nat) : (field w lo n).getLsbD i = (decide (i < n) && w.getLsbD (lo + i)) := by
  simp [field]

/-! The fields of each layout. -/

@[simp] theorem field_wordJ_11 (a : BitVec 21) (b c : BitVec 3) (d : BitVec 5) : field (wordJ a b c d) 11 21 = a := by
  apply BitVec.eq_of_getLsbD_eq
  intro i hi
  rw [getLsbD_field, getLsbD_wordJ]
  grind

@[simp] theorem field_wordJ_8 (a : BitVec 21) (b c : BitVec 3) (d : BitVec 5) : field (wordJ a b c d) 8 3 = b := by
  apply BitVec.eq_of_getLsbD_eq
  intro i hi
  rw [getLsbD_field, getLsbD_wordJ]
  grind

@[simp] theorem field_wordJ_5 (a : BitVec 21) (b c : BitVec 3) (d : BitVec 5) : field (wordJ a b c d) 5 3 = c := by
  apply BitVec.eq_of_getLsbD_eq
  intro i hi
  rw [getLsbD_field, getLsbD_wordJ]
  grind

@[simp] theorem field_wordJ_0 (a : BitVec 21) (b c : BitVec 3) (d : BitVec 5) : field (wordJ a b c d) 0 5 = d := by
  apply BitVec.eq_of_getLsbD_eq
  intro i hi
  rw [getLsbD_field, getLsbD_wordJ]
  grind

@[simp] theorem field_wordJ_op (a : BitVec 21) (b c : BitVec 3) (d : BitVec 5) : field (wordJ a b c d) 0 3 = d.extractLsb' 0 3 := by
  apply BitVec.eq_of_getLsbD_eq
  intro i hi
  rw [getLsbD_field, getLsbD_wordJ]
  rw [BitVec.getLsbD_extractLsb']
  grind

theorem bit_wordJ (a : BitVec 21) (b c : BitVec 3) (d : BitVec 5) {k : Nat} (h : k < 5) :
    bit (wordJ a b c d) k = d.getLsbD k := by
  simp only [bit, getLsbD_wordJ, h, if_true]

@[simp] theorem field_wordJ_reg (a : BitVec 21) (b c : BitVec 3) (d : BitVec 5) : field (wordJ a b c d) 11 3 = a.extractLsb' 0 3 := by
  apply BitVec.eq_of_getLsbD_eq
  intro i hi
  rw [getLsbD_field, getLsbD_wordJ]
  rw [BitVec.getLsbD_extractLsb']
  grind

/-- A word is its fields in the layout of `wordJ`. -/
theorem wordJ_fields (w : Word) :
    wordJ (field w 11 21) (field w 8 3) (field w 5 3) (field w 0 5) = w := by
  apply BitVec.eq_of_getLsbD_eq
  intro i hi
  rw [getLsbD_wordJ]
  simp only [getLsbD_field]
  grind

@[simp] theorem field_wordM_13 (a : BitVec 19) (b c : BitVec 3) (d : BitVec 7) : field (wordM a b c d) 13 19 = a := by
  apply BitVec.eq_of_getLsbD_eq
  intro i hi
  rw [getLsbD_field, getLsbD_wordM]
  grind

@[simp] theorem field_wordM_10 (a : BitVec 19) (b c : BitVec 3) (d : BitVec 7) : field (wordM a b c d) 10 3 = b := by
  apply BitVec.eq_of_getLsbD_eq
  intro i hi
  rw [getLsbD_field, getLsbD_wordM]
  grind

@[simp] theorem field_wordM_7 (a : BitVec 19) (b c : BitVec 3) (d : BitVec 7) : field (wordM a b c d) 7 3 = c := by
  apply BitVec.eq_of_getLsbD_eq
  intro i hi
  rw [getLsbD_field, getLsbD_wordM]
  grind

@[simp] theorem field_wordM_0 (a : BitVec 19) (b c : BitVec 3) (d : BitVec 7) : field (wordM a b c d) 0 7 = d := by
  apply BitVec.eq_of_getLsbD_eq
  intro i hi
  rw [getLsbD_field, getLsbD_wordM]
  grind

@[simp] theorem field_wordM_op (a : BitVec 19) (b c : BitVec 3) (d : BitVec 7) : field (wordM a b c d) 0 3 = d.extractLsb' 0 3 := by
  apply BitVec.eq_of_getLsbD_eq
  intro i hi
  rw [getLsbD_field, getLsbD_wordM]
  rw [BitVec.getLsbD_extractLsb']
  grind

theorem bit_wordM (a : BitVec 19) (b c : BitVec 3) (d : BitVec 7) {k : Nat} (h : k < 7) :
    bit (wordM a b c d) k = d.getLsbD k := by
  simp only [bit, getLsbD_wordM, h, if_true]

@[simp] theorem field_wordM_low_4_2 (a : BitVec 19) (b c : BitVec 3) (d : BitVec 7) : field (wordM a b c d) 4 2 = d.extractLsb' 4 2 := by
  apply BitVec.eq_of_getLsbD_eq
  intro i hi
  rw [getLsbD_field, getLsbD_wordM]
  rw [BitVec.getLsbD_extractLsb']
  grind

@[simp] theorem field_wordM_low_3_3 (a : BitVec 19) (b c : BitVec 3) (d : BitVec 7) : field (wordM a b c d) 3 3 = d.extractLsb' 3 3 := by
  apply BitVec.eq_of_getLsbD_eq
  intro i hi
  rw [getLsbD_field, getLsbD_wordM]
  rw [BitVec.getLsbD_extractLsb']
  grind

@[simp] theorem field_wordM_low_3_2 (a : BitVec 19) (b c : BitVec 3) (d : BitVec 7) : field (wordM a b c d) 3 2 = d.extractLsb' 3 2 := by
  apply BitVec.eq_of_getLsbD_eq
  intro i hi
  rw [getLsbD_field, getLsbD_wordM]
  rw [BitVec.getLsbD_extractLsb']
  grind

@[simp] theorem field_wordM_reg (a : BitVec 19) (b c : BitVec 3) (d : BitVec 7) : field (wordM a b c d) 13 3 = a.extractLsb' 0 3 := by
  apply BitVec.eq_of_getLsbD_eq
  intro i hi
  rw [getLsbD_field, getLsbD_wordM]
  rw [BitVec.getLsbD_extractLsb']
  grind

/-- A word is its fields in the layout of `wordM`. -/
theorem wordM_fields (w : Word) :
    wordM (field w 13 19) (field w 10 3) (field w 7 3) (field w 0 7) = w := by
  apply BitVec.eq_of_getLsbD_eq
  intro i hi
  rw [getLsbD_wordM]
  simp only [getLsbD_field]
  grind

@[simp] theorem field_wordS_7 (a : BitVec 25) (b : BitVec 3) (c : BitVec 4) : field (wordS a b c) 7 25 = a := by
  apply BitVec.eq_of_getLsbD_eq
  intro i hi
  rw [getLsbD_field, getLsbD_wordS]
  grind

@[simp] theorem field_wordS_4 (a : BitVec 25) (b : BitVec 3) (c : BitVec 4) : field (wordS a b c) 4 3 = b := by
  apply BitVec.eq_of_getLsbD_eq
  intro i hi
  rw [getLsbD_field, getLsbD_wordS]
  grind

@[simp] theorem field_wordS_0 (a : BitVec 25) (b : BitVec 3) (c : BitVec 4) : field (wordS a b c) 0 4 = c := by
  apply BitVec.eq_of_getLsbD_eq
  intro i hi
  rw [getLsbD_field, getLsbD_wordS]
  grind

@[simp] theorem field_wordS_op (a : BitVec 25) (b : BitVec 3) (c : BitVec 4) : field (wordS a b c) 0 3 = c.extractLsb' 0 3 := by
  apply BitVec.eq_of_getLsbD_eq
  intro i hi
  rw [getLsbD_field, getLsbD_wordS]
  rw [BitVec.getLsbD_extractLsb']
  grind

theorem bit_wordS (a : BitVec 25) (b : BitVec 3) (c : BitVec 4) {k : Nat} (h : k < 4) :
    bit (wordS a b c) k = c.getLsbD k := by
  simp only [bit, getLsbD_wordS, h, if_true]

/-- A word is its fields in the layout of `wordS`. -/
theorem wordS_fields (w : Word) :
    wordS (field w 7 25) (field w 4 3) (field w 0 4) = w := by
  apply BitVec.eq_of_getLsbD_eq
  intro i hi
  rw [getLsbD_wordS]
  simp only [getLsbD_field]
  grind

@[simp] theorem field_layoutU_12 (j : BitVec 20) (a : BitVec 6) (b c : BitVec 3) : field (layoutU j a b c) 12 20 = j := by
  apply BitVec.eq_of_getLsbD_eq
  intro i hi
  rw [getLsbD_field, getLsbD_layoutU]
  grind

@[simp] theorem field_layoutU_6 (j : BitVec 20) (a : BitVec 6) (b c : BitVec 3) : field (layoutU j a b c) 6 6 = a := by
  apply BitVec.eq_of_getLsbD_eq
  intro i hi
  rw [getLsbD_field, getLsbD_layoutU]
  grind

@[simp] theorem field_layoutU_3 (j : BitVec 20) (a : BitVec 6) (b c : BitVec 3) : field (layoutU j a b c) 3 3 = b := by
  apply BitVec.eq_of_getLsbD_eq
  intro i hi
  rw [getLsbD_field, getLsbD_layoutU]
  grind

@[simp] theorem field_layoutU_0 (j : BitVec 20) (a : BitVec 6) (b c : BitVec 3) : field (layoutU j a b c) 0 3 = c := by
  apply BitVec.eq_of_getLsbD_eq
  intro i hi
  rw [getLsbD_field, getLsbD_layoutU]
  grind

theorem bit_layoutU (j : BitVec 20) (a : BitVec 6) (b c : BitVec 3) {k : Nat} (h : k < 3) :
    bit (layoutU j a b c) k = c.getLsbD k := by
  simp only [bit, getLsbD_layoutU, h, if_true]

/-- A word is its fields in the layout of `layoutU`. -/
theorem layoutU_fields (w : Word) :
    layoutU (field w 12 20) (field w 6 6) (field w 3 3) (field w 0 3) = w := by
  apply BitVec.eq_of_getLsbD_eq
  intro i hi
  rw [getLsbD_layoutU]
  simp only [getLsbD_field]
  grind

@[simp] theorem field_layoutH_17 (j : BitVec 15) (a : BitVec 5) (b c : BitVec 3) (d : BitVec 6) : field (layoutH j a b c d) 17 15 = j := by
  apply BitVec.eq_of_getLsbD_eq
  intro i hi
  rw [getLsbD_field, getLsbD_layoutH]
  grind

@[simp] theorem field_layoutH_12 (j : BitVec 15) (a : BitVec 5) (b c : BitVec 3) (d : BitVec 6) : field (layoutH j a b c d) 12 5 = a := by
  apply BitVec.eq_of_getLsbD_eq
  intro i hi
  rw [getLsbD_field, getLsbD_layoutH]
  grind

@[simp] theorem field_layoutH_9 (j : BitVec 15) (a : BitVec 5) (b c : BitVec 3) (d : BitVec 6) : field (layoutH j a b c d) 9 3 = b := by
  apply BitVec.eq_of_getLsbD_eq
  intro i hi
  rw [getLsbD_field, getLsbD_layoutH]
  grind

@[simp] theorem field_layoutH_6 (j : BitVec 15) (a : BitVec 5) (b c : BitVec 3) (d : BitVec 6) : field (layoutH j a b c d) 6 3 = c := by
  apply BitVec.eq_of_getLsbD_eq
  intro i hi
  rw [getLsbD_field, getLsbD_layoutH]
  grind

@[simp] theorem field_layoutH_0 (j : BitVec 15) (a : BitVec 5) (b c : BitVec 3) (d : BitVec 6) : field (layoutH j a b c d) 0 6 = d := by
  apply BitVec.eq_of_getLsbD_eq
  intro i hi
  rw [getLsbD_field, getLsbD_layoutH]
  grind

@[simp] theorem field_layoutH_op (j : BitVec 15) (a : BitVec 5) (b c : BitVec 3) (d : BitVec 6) : field (layoutH j a b c d) 0 3 = d.extractLsb' 0 3 := by
  apply BitVec.eq_of_getLsbD_eq
  intro i hi
  rw [getLsbD_field, getLsbD_layoutH]
  rw [BitVec.getLsbD_extractLsb']
  grind

theorem bit_layoutH (j : BitVec 15) (a : BitVec 5) (b c : BitVec 3) (d : BitVec 6) {k : Nat} (h : k < 6) :
    bit (layoutH j a b c d) k = d.getLsbD k := by
  simp only [bit, getLsbD_layoutH, h, if_true]

@[simp] theorem field_layoutH_reg (j : BitVec 15) (a : BitVec 5) (b c : BitVec 3) (d : BitVec 6) : field (layoutH j a b c d) 12 3 = a.extractLsb' 0 3 := by
  apply BitVec.eq_of_getLsbD_eq
  intro i hi
  rw [getLsbD_field, getLsbD_layoutH]
  rw [BitVec.getLsbD_extractLsb']
  grind

/-- A word is its fields in the layout of `layoutH`. -/
theorem layoutH_fields (w : Word) :
    layoutH (field w 17 15) (field w 12 5) (field w 9 3) (field w 6 3) (field w 0 6) = w := by
  apply BitVec.eq_of_getLsbD_eq
  intro i hi
  rw [getLsbD_layoutH]
  simp only [getLsbD_field]
  grind

@[simp] theorem regInJ_low (f : BitVec 3) : (regInJ f).extractLsb' 0 3 = f := by
  apply BitVec.eq_of_getLsbD_eq
  intro i hi
  rw [BitVec.getLsbD_extractLsb', regInJ, BitVec.getLsbD_append]
  grind

@[simp] theorem regInM_low (f : BitVec 3) : (regInM f).extractLsb' 0 3 = f := by
  apply BitVec.eq_of_getLsbD_eq
  intro i hi
  rw [BitVec.getLsbD_extractLsb', regInM, BitVec.getLsbD_append]
  grind

@[simp] theorem regInH_low (f : BitVec 3) : (regInH f).extractLsb' 0 3 = f := by
  apply BitVec.eq_of_getLsbD_eq
  intro i hi
  rw [BitVec.getLsbD_extractLsb', regInH, BitVec.getLsbD_append]
  grind

/-! The control bits of each layout under a mask. -/

theorem wordJ_and_1F (a : BitVec 21) (b c : BitVec 3) (d : BitVec 5) : wordJ a b c d &&& 0x1F#32 = d.zeroExtend 32 := by
  have e : (0x1F#32 : Word) = BitVec.ofNat 32 (2 ^ 5 - 1) := rfl
  apply BitVec.eq_of_getLsbD_eq
  intro i hi
  rw [BitVec.getLsbD_and, getLsbD_wordJ, e, BitVec.getLsbD_ofNat, Nat.testBit_two_pow_sub_one]
  simp only [BitVec.truncate_eq_setWidth, BitVec.getLsbD_setWidth]
  grind

theorem wordM_and_7F (a : BitVec 19) (b c : BitVec 3) (d : BitVec 7) : wordM a b c d &&& 0x7F#32 = d.zeroExtend 32 := by
  have e : (0x7F#32 : Word) = BitVec.ofNat 32 (2 ^ 7 - 1) := rfl
  apply BitVec.eq_of_getLsbD_eq
  intro i hi
  rw [BitVec.getLsbD_and, getLsbD_wordM, e, BitVec.getLsbD_ofNat, Nat.testBit_two_pow_sub_one]
  simp only [BitVec.truncate_eq_setWidth, BitVec.getLsbD_setWidth]
  grind

theorem wordM_and_3F (a : BitVec 19) (b c : BitVec 3) (d : BitVec 7) : wordM a b c d &&& 0x3F#32 = (d.extractLsb' 0 6).zeroExtend 32 := by
  have e : (0x3F#32 : Word) = BitVec.ofNat 32 (2 ^ 6 - 1) := rfl
  apply BitVec.eq_of_getLsbD_eq
  intro i hi
  rw [BitVec.getLsbD_and, getLsbD_wordM, e, BitVec.getLsbD_ofNat, Nat.testBit_two_pow_sub_one]
  simp only [BitVec.truncate_eq_setWidth, BitVec.getLsbD_setWidth, BitVec.getLsbD_extractLsb']
  grind

theorem wordS_and_0F (a : BitVec 25) (b : BitVec 3) (c : BitVec 4) : wordS a b c &&& 0x0F#32 = c.zeroExtend 32 := by
  have e : (0x0F#32 : Word) = BitVec.ofNat 32 (2 ^ 4 - 1) := rfl
  apply BitVec.eq_of_getLsbD_eq
  intro i hi
  rw [BitVec.getLsbD_and, getLsbD_wordS, e, BitVec.getLsbD_ofNat, Nat.testBit_two_pow_sub_one]
  simp only [BitVec.truncate_eq_setWidth, BitVec.getLsbD_setWidth]
  grind

theorem layoutU_and_07 (j : BitVec 20) (a : BitVec 6) (b c : BitVec 3) : layoutU j a b c &&& 0x07#32 = c.zeroExtend 32 := by
  have e : (0x07#32 : Word) = BitVec.ofNat 32 (2 ^ 3 - 1) := rfl
  apply BitVec.eq_of_getLsbD_eq
  intro i hi
  rw [BitVec.getLsbD_and, getLsbD_layoutU, e, BitVec.getLsbD_ofNat, Nat.testBit_two_pow_sub_one]
  simp only [BitVec.truncate_eq_setWidth, BitVec.getLsbD_setWidth]
  grind

theorem layoutH_and_3F (j : BitVec 15) (a : BitVec 5) (b c : BitVec 3) (d : BitVec 6) : layoutH j a b c d &&& 0x3F#32 = d.zeroExtend 32 := by
  have e : (0x3F#32 : Word) = BitVec.ofNat 32 (2 ^ 6 - 1) := rfl
  apply BitVec.eq_of_getLsbD_eq
  intro i hi
  rw [BitVec.getLsbD_and, getLsbD_layoutH, e, BitVec.getLsbD_ofNat, Nat.testBit_two_pow_sub_one]
  simp only [BitVec.truncate_eq_setWidth, BitVec.getLsbD_setWidth]
  grind

end Sys2Proof
end

