-- ==== Sys2Proof/Laws/Memory.lean ====
section
/-! SUPPORT. RAM: reading after writing, byte by byte and by whole values, and the canonical form, which every
operation keeps. -/

namespace Sys2Proof.Machine

/-! One byte. -/

@[simp] theorem read_nil (a : Nat) : Memory.read [] a = none := rfl

theorem read_cons (y : Nat) (v : Byte) (m : Memory) (a : Nat) :
    Memory.read ((y, v) :: m) a = if a = y then some v else Memory.read m a := rfl

@[simp] theorem put_eq (a : Nat) (b : Byte) (m : Memory) : Memory.put a b m = (a, b) :: m := by
  simp [Memory.put, Memory.unlisted]

/-- Reading after writing: the byte written at its address, and what was there before at every other. -/
theorem read_write (m : Memory) (a : Nat) (b : Byte) (a' : Nat) :
    Memory.read (Memory.write m a b) a' = if a' = a then some b else Memory.read m a' := by
  induction m with
  | nil => simp [Memory.write, read_cons]
  | cons c m ih =>
    obtain ⟨y, v⟩ := c
    simp only [Memory.write, put_eq]
    split
    · rw [read_cons]
    · split
      · subst_vars
        simp only [read_cons]
        split <;> simp_all
      · simp only [read_cons, ih]
        split <;> split <;> simp_all

/-! The canonical form. -/

theorem above_cons (a : Nat) (c : Host.Cell) (m : Memory) :
    Memory.above a (c :: m) = true ↔ a < c.1 ∧ Memory.above a m = true := by
  simp [Memory.above]

theorem above_mono {a b : Nat} (h : a ≤ b) {m : Memory} (hm : Memory.above b m = true) :
    Memory.above a m = true := by
  simp only [Memory.above, List.all_eq_true, decide_eq_true_eq] at hm ⊢
  exact fun c hc => lt_of_le_of_lt h (hm c hc)

theorem above_write {y a : Nat} {m : Memory} {b : Byte} (h : Memory.above y m = true) (ha : y < a) :
    Memory.above y (Memory.write m a b) = true := by
  induction m with
  | nil => simp [Memory.write, Memory.above, ha]
  | cons c m ih =>
    obtain ⟨z, v⟩ := c
    have hc := (above_cons y (z, v) m).1 h
    simp only [Memory.write, put_eq]
    split
    · exact (above_cons _ _ _).2 ⟨ha, h⟩
    · split
      · exact (above_cons _ _ _).2 ⟨ha, hc.2⟩
      · exact (above_cons _ _ _).2 ⟨hc.1, ih hc.2⟩

theorem wf_cons (y : Nat) (v : Byte) (m : Memory) :
    Memory.wf ((y, v) :: m) = true ↔ Memory.above y m = true ∧ Memory.wf m = true := by
  simp [Memory.wf, Memory.unlisted]

/-- Storing a byte keeps the canonical form. -/
theorem wf_write {m : Memory} (h : Memory.wf m = true) (a : Nat) (b : Byte) : Memory.wf (Memory.write m a b) = true := by
  induction m with
  | nil => simp [Memory.write, Memory.above, Memory.wf, Memory.unlisted]
  | cons c m ih =>
    obtain ⟨y, v⟩ := c
    have hc := (wf_cons y v m).1 h
    simp only [Memory.write, put_eq]
    split
    · rename_i hlt
      exact (wf_cons _ _ _).2 ⟨(above_cons _ _ _).2 ⟨hlt, above_mono hlt.le hc.1⟩, h⟩
    · split
      · rename_i heq
        exact (wf_cons _ _ _).2 ⟨heq ▸ hc.1, hc.2⟩
      · rename_i h1 h2
        exact (wf_cons _ _ _).2 ⟨above_write hc.1 (by omega), ih hc.2⟩

/-- Storing a byte at an address of RAM lists no address outside RAM. -/
theorem inRam_write {m : Memory} (h : Memory.inRam m = true) {a : Nat} (ha : a ≤ ramLast) (b : Byte) :
    Memory.inRam (Memory.write m a b) = true := by
  induction m with
  | nil => simp [Memory.write, Memory.inRam, ha]
  | cons c m ih =>
    obtain ⟨y, v⟩ := c
    have hc : y ≤ ramLast ∧ Memory.inRam m = true := by simpa [Memory.inRam] using h
    have key : ∀ (z : Nat) (u : Byte) (l : Memory), z ≤ ramLast → Memory.inRam l = true →
        Memory.inRam ((z, u) :: l) = true := by
      intro z u l hz hl
      simp only [Memory.inRam, List.all_cons, Bool.and_eq_true, decide_eq_true_eq] at hl ⊢
      exact ⟨hz, hl⟩
    simp only [Memory.write, put_eq]
    split
    · exact key _ _ _ ha h
    · split
      · exact key _ _ _ ha hc.2
      · exact key _ _ _ hc.1 (ih hc.2)

/-! Values of several bytes. -/

/-- The bytes of a value shifted down by one byte. -/
theorem byteOf_shift (v : Word) (k : Nat) : byteOf (v >>> 8) k = byteOf v (k + 1) := by
  apply BitVec.eq_of_getLsbD_eq
  intro i hi
  simp only [byteOf, BitVec.getLsbD_extractLsb', BitVec.getLsbD_ushiftRight, hi, decide_true, Bool.true_and]
  congr 1
  omega

/-- What every address reads as after a store: the bytes of the value in its range, what was there elsewhere. -/
theorem read_writeLE (m : Memory) (a n : Nat) (v : Word) (a' : Nat) :
    Memory.read (Memory.writeLE m a n v) a' =
      if a ≤ a' ∧ a' < a + n then some (byteOf v (a' - a)) else Memory.read m a' := by
  induction n generalizing m a v with
  | zero =>
    have : ¬(a ≤ a' ∧ a' < a + 0) := by omega
    simp only [Memory.writeLE, if_neg this]
  | succ n ih =>
    simp only [Memory.writeLE]
    rw [ih, read_write]
    by_cases h : a' = a
    · subst h
      have h1 : ¬(a' + 1 ≤ a' ∧ a' < a' + 1 + n) := by omega
      have h2 : a' ≤ a' ∧ a' < a' + (n + 1) := by omega
      simp only [if_neg h1, if_pos h2, if_true, Nat.sub_self]
    · by_cases h3 : a + 1 ≤ a' ∧ a' < a + 1 + n
      · have h4 : a ≤ a' ∧ a' < a + (n + 1) := by omega
        rw [if_pos h3, if_pos h4, byteOf_shift]
        congr 2
        omega
      · have h4 : ¬(a ≤ a' ∧ a' < a + (n + 1)) := by omega
        rw [if_neg h3, if_neg h4, if_neg h]

/-- A store keeps the canonical form. -/
theorem wf_writeLE {m : Memory} (h : Memory.wf m = true) (a n : Nat) (v : Word) :
    Memory.wf (Memory.writeLE m a n v) = true := by
  induction n generalizing m a v with
  | zero => exact h
  | succ n ih => exact ih (wf_write h a _) _ _

/-- A store inside RAM lists no address outside RAM. -/
theorem inRam_writeLE {m : Memory} (h : Memory.inRam m = true) (a n : Nat) (v : Word)
    (ha : a + n ≤ ramLast + 1) : Memory.inRam (Memory.writeLE m a n v) = true := by
  induction n generalizing m a v with
  | zero => exact h
  | succ n ih => exact ih (inRam_write h (by omega) _) _ _ (by omega)

/-- A value of several bytes can be read exactly when each of its bytes holds a value. -/
theorem readLE_eq_none (m : Memory) (a n : Nat) :
    Memory.readLE m a n = none ↔ ∃ k, k < n ∧ Memory.read m (a + k) = none := by
  induction n generalizing a with
  | zero => simp [Memory.readLE]
  | succ n ih =>
    simp only [Memory.readLE]
    constructor
    · intro h
      cases hb : Memory.read m a with
      | none => exact ⟨0, by omega, hb⟩
      | some b =>
        cases hv : Memory.readLE m (a + 1) n with
        | none =>
          obtain ⟨k, hk, hr⟩ := (ih (a + 1)).1 hv
          exact ⟨k + 1, by omega, by rw [← hr]; congr 1; omega⟩
        | some v => simp [hb, hv] at h
    · rintro ⟨k, hk, hr⟩
      cases k with
      | zero => simp only [Nat.add_zero] at hr; simp [hr]
      | succ k =>
        have : Memory.readLE m (a + 1) n = none :=
          (ih (a + 1)).2 ⟨k, by omega, by rw [← hr]; congr 1; omega⟩
        rw [this]
        split <;> simp_all

/-- The value of several bytes, from the bytes: byte `k` of `v` at `a + k`, the bits of `v` above them zero. -/
theorem readLE_of_bytes (m : Memory) (a n : Nat) (v : Word) (hn : n ≤ 4)
    (hb : ∀ k, k < n → Memory.read m (a + k) = some (byteOf v k)) (hv : v.toNat < 2 ^ (8 * n)) :
    Memory.readLE m a n = some v := by
  induction n generalizing a v with
  | zero =>
    simp only [Memory.readLE]
    congr 1
    apply BitVec.eq_of_toNat_eq
    simp at hv ⊢
    omega
  | succ n ih =>
    have h0 := hb 0 (by omega)
    simp only [Nat.add_zero] at h0
    have h1 : Memory.readLE m (a + 1) n = some (v >>> 8) := by
      apply ih
      · omega
      · intro k hk
        rw [byteOf_shift, ← hb (k + 1) (by omega)]
        congr 1
        omega
      · rw [BitVec.toNat_ushiftRight, Nat.shiftRight_eq_div_pow]
        have : 2 ^ (8 * (n + 1)) = 2 ^ (8 * n) * 2 ^ 8 := by rw [← pow_add]; congr 1
        rw [this] at hv
        exact Nat.div_lt_of_lt_mul (by rw [mul_comm]; exact hv)
    simp only [Memory.readLE, h0, h1]
    congr 1
    apply BitVec.eq_of_getLsbD_eq
    intro i hi
    simp only [byteOf, Nat.mul_zero, BitVec.getLsbD_or, BitVec.getLsbD_setWidth, BitVec.getLsbD_extractLsb',
      BitVec.getLsbD_shiftLeft, BitVec.getLsbD_ushiftRight, hi, decide_true, Bool.true_and, Nat.zero_add]
    by_cases h8 : i < 8
    · simp [h8]
    · simp only [h8, decide_false, Bool.false_and, Bool.false_or, Bool.not_false, Bool.true_and]
      congr 1
      omega

/-- A value that was read has the bytes that are there, and zeros above them. -/
theorem bytes_of_readLE {m : Memory} {a n : Nat} {v : Word} (hn : n ≤ 4) (h : Memory.readLE m a n = some v) :
    (∀ k, k < n → Memory.read m (a + k) = some (byteOf v k)) ∧ v.toNat < 2 ^ (8 * n) := by
  induction n generalizing a v with
  | zero =>
    simp only [Memory.readLE, Option.some.injEq] at h
    subst h
    exact ⟨fun k hk => absurd hk (by omega), by simp⟩
  | succ n ih =>
    simp only [Memory.readLE] at h
    split at h
    · rename_i b u hb hu
      obtain ⟨hk, hlt⟩ := ih (by omega) hu
      simp only [Option.some.injEq] at h
      subst h
      have h256 : u.toNat * 256 < 2 ^ 32 := by
        have h1 : u.toNat * 256 < 2 ^ (8 * n) * 2 ^ 8 := Nat.mul_lt_mul_of_pos_right hlt (by norm_num)
        have h2 : 2 ^ (8 * n) * 2 ^ 8 ≤ 2 ^ 32 := by rw [← pow_add]; exact Nat.pow_le_pow_right (by norm_num) (by omega)
        omega
      have e0 : byteOf (b.zeroExtend 32 ||| u <<< 8) 0 = b := by
        apply BitVec.eq_of_getLsbD_eq
        intro i hi
        have : i < 32 := by omega
        simp [byteOf, hi, this]
      have eS : ∀ k, k < n → byteOf (b.zeroExtend 32 ||| u <<< 8) (k + 1) = byteOf u k := by
        intro k hk
        apply BitVec.eq_of_getLsbD_eq
        intro i hi
        have h1 : 8 * (k + 1) + i < 32 := by omega
        have h2 : ¬(8 * (k + 1) + i < 8) := by omega
        have h3 : BitVec.getLsbD b (8 * (k + 1) + i) = false := BitVec.getLsbD_of_ge _ _ (by omega)
        simp only [byteOf, BitVec.getLsbD_extractLsb', BitVec.getLsbD_or, BitVec.getLsbD_setWidth,
          BitVec.getLsbD_shiftLeft, hi, h1, h2, h3, decide_true, decide_false, Bool.true_and, Bool.false_or,
          Bool.not_false]
        congr 1
        omega
      refine ⟨fun k hk' => ?_, ?_⟩
      · cases k with
        | zero => rw [e0]; exact hb
        | succ k =>
          rw [eS k (by omega), ← hk k (by omega)]
          congr 1
          omega
      · have hz : (b.zeroExtend 32).toNat < 256 := by
          have := b.isLt
          simp only [BitVec.truncate_eq_setWidth, BitVec.toNat_setWidth]
          omega
        have hs : (u <<< 8).toNat = u.toNat * 256 := by
          rw [BitVec.toNat_shiftLeft, Nat.shiftLeft_eq, Nat.mod_eq_of_lt (by simpa using h256)]
        rw [BitVec.toNat_or, hs]
        have e : 2 ^ (8 * (n + 1)) = 2 ^ (8 * n) * 256 := by
          rw [show 8 * (n + 1) = 8 * n + 8 by ring, pow_add]
          norm_num
        apply Nat.or_lt_two_pow
        · refine lt_of_lt_of_le hz ?_
          rw [e]
          exact Nat.le_mul_of_pos_left _ (by positivity)
        · rw [e]
          exact Nat.mul_lt_mul_of_pos_right hlt (by norm_num)
    · simp at h

/-- The four bytes of a word in memory read as `RAM[a+3] ++ RAM[a+2] ++ RAM[a+1] ++ RAM[a]` (spec/20_memory.md R23). -/
theorem readLE_four {m : Memory} {a : Nat} {b0 b1 b2 b3 : Byte} (h0 : Memory.read m a = some b0)
    (h1 : Memory.read m (a + 1) = some b1) (h2 : Memory.read m (a + 2) = some b2)
    (h3 : Memory.read m (a + 3) = some b3) : Memory.readLE m a 4 = some (wordOfBytes b0 b1 b2 b3) := by
  have e : ∀ i, i < 32 → (wordOfBytes b0 b1 b2 b3).getLsbD i =
      if i < 8 then b0.getLsbD i else if i < 16 then b1.getLsbD (i - 8)
      else if i < 24 then b2.getLsbD (i - 16) else b3.getLsbD (i - 24) := by
    intro i _
    simp only [wordOfBytes, BitVec.getLsbD_append]
    split
    · rfl
    · have : (i - 8 < 8) = (i < 16) := by apply propext; omega
      simp only [this]
      split
      · rfl
      · have : (i - 8 - 8 < 8) = (i < 24) := by apply propext; omega
        simp only [this]
        simp only [Nat.sub_sub]
  have eb : ∀ k, k < 4 → ∀ b : Byte, (∀ i, i < 8 → (wordOfBytes b0 b1 b2 b3).getLsbD (8 * k + i) = b.getLsbD i) →
      byteOf (wordOfBytes b0 b1 b2 b3) k = b := by
    intro k _ b hb
    apply BitVec.eq_of_getLsbD_eq
    intro i hi
    simp only [byteOf, BitVec.getLsbD_extractLsb', hi, decide_true, Bool.true_and, hb i hi]
  apply readLE_of_bytes
  · omega
  · intro k hk
    obtain rfl | rfl | rfl | rfl : k = 0 ∨ k = 1 ∨ k = 2 ∨ k = 3 := by omega
    · rw [eb 0 (by omega) b0 (fun i hi => by rw [e _ (by omega), if_pos (by omega)]; congr 1; omega)]; exact h0
    · rw [eb 1 (by omega) b1 (fun i hi => by
        rw [e _ (by omega), if_neg (by omega), if_pos (by omega)]; congr 1; omega)]; exact h1
    · rw [eb 2 (by omega) b2 (fun i hi => by
        rw [e _ (by omega), if_neg (by omega), if_neg (by omega), if_pos (by omega)]; congr 1; omega)]; exact h2
    · rw [eb 3 (by omega) b3 (fun i hi => by
        rw [e _ (by omega), if_neg (by omega), if_neg (by omega), if_neg (by omega)]; congr 1; omega)]; exact h3
  · exact (wordOfBytes b0 b1 b2 b3).isLt

/-! An image. -/

/-- Loading an image keeps the canonical form. -/
theorem wf_load {m : Memory} (h : Memory.wf m = true) (image : List Host.Cell) :
    Memory.wf (Memory.load m image) = true := by
  induction image generalizing m with
  | nil => exact h
  | cons c image ih => exact ih (wf_write h c.1 c.2)

end Sys2Proof.Machine
end

