-- ==== Sys2Proof/Laws/State.lean ====
section
/-! SUPPORT. One lemma per field of State and per update of it, and the register file's laws (spec/10_state.md R12). -/

namespace Sys2Proof.Machine

@[simp] theorem setReg_pc (s : State) (r : Reg) (v : Word) : (s.setReg r v).pc = s.pc := rfl
@[simp] theorem setReg_mem (s : State) (r : Reg) (v : Word) : (s.setReg r v).mem = s.mem := rfl
@[simp] theorem setPc_pc (s : State) (p : Word) : (s.setPc p).pc = p := rfl
@[simp] theorem setPc_regs (s : State) (p : Word) : (s.setPc p).regs = s.regs := rfl
@[simp] theorem setPc_mem (s : State) (p : Word) : (s.setPc p).mem = s.mem := rfl
@[simp] theorem setPc_reg (s : State) (p : Word) (r : Reg) : (s.setPc p).reg r = s.reg r := rfl
@[simp] theorem setMem_pc (s : State) (m : Memory) : (s.setMem m).pc = s.pc := rfl
@[simp] theorem setMem_regs (s : State) (m : Memory) : (s.setMem m).regs = s.regs := rfl
@[simp] theorem setMem_mem (s : State) (m : Memory) : (s.setMem m).mem = m := rfl
@[simp] theorem setMem_reg (s : State) (m : Memory) (r : Reg) : (s.setMem m).reg r = s.reg r := rfl
@[simp] theorem advance_pc (c : Config) (s : State) : (s.advance c).pc = s.pc + c.pcStep := rfl
@[simp] theorem advance_regs (c : Config) (s : State) : (s.advance c).regs = s.regs := rfl
@[simp] theorem advance_mem (c : Config) (s : State) : (s.advance c).mem = s.mem := rfl
@[simp] theorem advance_reg (c : Config) (s : State) (r : Reg) : (s.advance c).reg r = s.reg r := rfl

/-- A register holds what was written to it. -/
@[simp] theorem get_set_same (y : Regs) (r : Reg) (v : Word) : (y.set r v).get r = v := by cases r <;> rfl

/-- Writing a register leaves every other one alone. -/
@[simp] theorem get_set_ne (y : Regs) {r q : Reg} (v : Word) (h : q ≠ r) : (y.set r v).get q = y.get q := by
  cases r <;> cases q <;> first | rfl | exact absurd rfl h

@[simp] theorem setReg_reg_same (s : State) (r : Reg) (v : Word) : (s.setReg r v).reg r = v :=
  get_set_same s.regs r v

@[simp] theorem setReg_reg_ne (s : State) {r q : Reg} (v : Word) (h : q ≠ r) : (s.setReg r v).reg q = s.reg q :=
  get_set_ne s.regs v h

/-- Two register files that read alike are equal. -/
theorem regs_eq_of_get {y z : Regs} (h : ∀ r, y.get r = z.get r) : y = z := by
  have h1 := h .r1; have h2 := h .r2; have h3 := h .r3; have h4 := h .r4
  have h5 := h .r5; have h6 := h .r6; have h7 := h .r7; have h8 := h .r8
  cases y; cases z
  simp only [Regs.get] at h1 h2 h3 h4 h5 h6 h7 h8
  subst_vars
  rfl

end Sys2Proof.Machine
end

