-- ==== Sys2Proof/Laws/Ops.lean ====
section
/-! SUPPORT. For each shared operation, once, what it answers under this model's setting of the parameters: proofs cite
these lemmas instead of unfolding the operation. -/

namespace Sys2Proof.Machine

/-! Raising. -/

@[simp] theorem orRaise_ok {α : Type} (a : α) (k : α → Result) : orRaise (.ok a) k = k a := rfl
@[simp] theorem orRaise_error {α : Type} (f : Fault) (k : α → Result) : orRaise (.error f) k = .fault f := rfl

theorem orRaise_next {α : Type} {y : Except Fault α} {k : α → Result} {t : State} :
    orRaise y k = .next t ↔ ∃ a, y = .ok a ∧ k a = .next t := by
  cases y <;> simp

theorem orRaise_fault {α : Type} {y : Except Fault α} {k : α → Result} {f : Fault} :
    orRaise y k = .fault f ↔ y = .error f ∨ ∃ a, y = .ok a ∧ k a = .fault f := by
  cases y <;> simp

theorem orRaise_refused {α : Type} {y : Except Fault α} {k : α → Result} {r : Refusal} :
    orRaise y k = .refused r ↔ ∃ a, y = .ok a ∧ k a = .refused r := by
  cases y <;> simp

/-! Operands. -/

@[simp] theorem addressSum_config (pc b o : Word) : addressSum config pc b o = .ok (b + o) := rfl
@[simp] theorem extendOffset_config {n : Nat} (imm : BitVec n) : extendOffset config imm = imm.zeroExtend 32 := rfl
@[simp] theorem accessOffset_config (imm : BitVec 19) : accessOffset config imm = imm.zeroExtend 32 := rfl
@[simp] theorem jumpOffset_config (imm : BitVec 21) : jumpOffset config imm = imm.zeroExtend 32 := by
  simp [jumpOffset]
@[simp] theorem shiftAmount_config (pc y : Word) : shiftAmount config pc y = .ok (lowFive y) := rfl
@[simp] theorem jumpTaken_config (v : Word) : jumpTaken config v = (v != 0#32) := rfl

theorem lowFive_eq (y : Word) : lowFive y = y.toNat % 32 := by
  simp [lowFive, field]

theorem lowFive_lt (y : Word) : lowFive y < 32 := (field y 0 5).isLt

/-! Ends of instructions. -/

theorem writeBack_config (dest : Reg) (v : Word) (s : State) :
    writeBack config dest v s = .next ((s.setReg dest v).setPc (s.pc + 4#32)) := rfl

theorem jump_config (b o : Word) (s : State) : jump config b o s = .next (s.setPc (b + o)) := rfl

theorem jumpIf_config (control b o : Word) (s : State) :
    jumpIf config control b o s = .next (s.setPc (if control = 0#32 then s.pc + 4#32 else b + o)) := by
  by_cases h : control = 0#32
  · subst h
    rfl
  · simp [jumpIf, h, jump_config]

/-- What a computed register's instruction answers, with its frame. -/
theorem writeBack_writes (dest : Reg) (v : Word) (s : State) :
    WritesRegister (writeBack config dest v s) s dest v :=
  ⟨_, writeBack_config dest v s, by simp, fun r h => by simp [h], by simp, fun a => by simp⟩

/-! Memory accesses. -/

theorem bytes_pos (w : Width) : 0 < w.bytes := by cases w <;> decide
theorem bytes_le (w : Width) : w.bytes ≤ 4 := by cases w <;> decide

/-- An aligned access whose first byte is in RAM has all its bytes in RAM (spec/20_memory.md R27). -/
theorem aligned_end (ea : Word) (w : Width) (h : ea.toNat % w.bytes = 0) (h' : ea.toNat ≤ 0x000FFFFF) :
    ea.toNat + w.bytes ≤ ramLast + 1 := by
  cases w <;> simp only [Width.bytes, ramLast] at h ⊢ <;> omega

theorem accessFault_misaligned (pc ea : Word) (w : Width) (k : AccessKind) (h : ea.toNat % w.bytes ≠ 0) :
    accessFault pc ea w k = some (.misalignedAccess pc ea w k) := by
  simp [accessFault, h]

theorem accessFault_outOfRange (pc ea : Word) (w : Width) (k : AccessKind) (h : ea.toNat % w.bytes = 0)
    (h' : 0x000FFFFF < ea.toNat) : accessFault pc ea w k = some (.accessOutOfRange pc ea w k) := by
  have h2 : ea.toNat + w.bytes - 1 > ramLast := by have := bytes_pos w; simp only [ramLast]; omega
  simp [accessFault, h, h2]

theorem accessFault_none (pc ea : Word) (w : Width) (k : AccessKind) (h : ea.toNat % w.bytes = 0)
    (h' : ea.toNat ≤ 0x000FFFFF) : accessFault pc ea w k = none := by
  have h2 : ¬ea.toNat + w.bytes - 1 > ramLast := by have := aligned_end ea w h h'; have := bytes_pos w; omega
  simp [accessFault, h, h2]

/-- Everything `MemWrite` can answer. -/
theorem memWrite_cases (s : State) (ea : Word) (w : Width) (v : Word) :
    (ea.toNat % w.bytes ≠ 0 ∧ memWrite s ea w v = .error (.misalignedAccess s.pc ea w .store)) ∨
    (ea.toNat % w.bytes = 0 ∧ 0x000FFFFF < ea.toNat ∧
      memWrite s ea w v = .error (.accessOutOfRange s.pc ea w .store)) ∨
    (ea.toNat % w.bytes = 0 ∧ ea.toNat ≤ 0x000FFFFF ∧
      memWrite s ea w v = .ok (s.setMem (Memory.writeLE s.mem ea.toNat w.bytes v))) := by
  by_cases h : ea.toNat % w.bytes = 0
  · by_cases h' : ea.toNat ≤ 0x000FFFFF
    · exact .inr (.inr ⟨h, h', by simp [memWrite, accessFault_none _ _ _ _ h h']⟩)
    · exact .inr (.inl ⟨h, by omega, by simp [memWrite, accessFault_outOfRange _ _ _ _ h (by omega)]⟩)
  · exact .inl ⟨h, by simp [memWrite, accessFault_misaligned _ _ _ _ h]⟩

/-- Everything `MemRead` can answer. -/
theorem memRead_cases (s : State) (ea : Word) (w : Width) :
    (ea.toNat % w.bytes ≠ 0 ∧ memRead s ea w = .error (.misalignedAccess s.pc ea w .load)) ∨
    (ea.toNat % w.bytes = 0 ∧ 0x000FFFFF < ea.toNat ∧
      memRead s ea w = .error (.accessOutOfRange s.pc ea w .load)) ∨
    (ea.toNat % w.bytes = 0 ∧ ea.toNat ≤ 0x000FFFFF ∧ Memory.readLE s.mem ea.toNat w.bytes = none ∧
      memRead s ea w = .error (.unwrittenRead s.pc ea w)) ∨
    (ea.toNat % w.bytes = 0 ∧ ea.toNat ≤ 0x000FFFFF ∧
      ∃ v, Memory.readLE s.mem ea.toNat w.bytes = some v ∧ memRead s ea w = .ok v) := by
  by_cases h : ea.toNat % w.bytes = 0
  · by_cases h' : ea.toNat ≤ 0x000FFFFF
    · cases hv : Memory.readLE s.mem ea.toNat w.bytes with
      | none => exact .inr (.inr (.inl ⟨h, h', rfl, by simp [memRead, accessFault_none _ _ _ _ h h', hv]⟩))
      | some v => exact .inr (.inr (.inr ⟨h, h', v, rfl, by simp [memRead, accessFault_none _ _ _ _ h h', hv]⟩))
    · exact .inr (.inl ⟨h, by omega, by simp [memRead, accessFault_outOfRange _ _ _ _ h (by omega)]⟩)
  · exact .inl ⟨h, by simp [memRead, accessFault_misaligned _ _ _ _ h]⟩

theorem store_config (w : Width) (v b o : Word) (s : State) :
    store config w v b o s = orRaise (memWrite s (b + o) w v) fun s' => .next (s'.advance config) := rfl

theorem load_config (w : Width) (dest : Reg) (b o : Word) (s : State) :
    load config w dest b o s = orRaise (memRead s (b + o) w) fun v => writeBack config dest v s := rfl

/-- What a store answers, whole. -/
theorem store_answers (w : Width) (v b o : Word) (s : State) :
    StoreAnswers (store config w v b o s) s w (b + o) v := by
  rw [store_config]
  rcases memWrite_cases s (b + o) w v with ⟨h, e⟩ | ⟨h, h', e⟩ | ⟨h, h', e⟩ <;> rw [e]
  · exact ⟨fun _ => rfl, fun h0 => absurd h0 h, fun h0 => absurd h0 h⟩
  · exact ⟨fun h0 => absurd h h0, fun _ _ => rfl, fun _ h1 => absurd h1 (by omega)⟩
  · refine ⟨fun h0 => absurd h h0, fun _ h1 => absurd h1 (by omega), fun _ _ => ⟨_, rfl, ?_, ?_, rfl, fun _ => rfl⟩⟩
    · intro k hk
      have hr : (b + o).toNat ≤ (b + o).toNat + k ∧ (b + o).toNat + k < (b + o).toNat + w.bytes := by omega
      simp only [advance_mem, setMem_mem]
      rw [read_writeLE, if_pos hr, Nat.add_sub_cancel_left]
      rfl
    · intro a ha
      have hr : ¬((b + o).toNat ≤ a ∧ a < (b + o).toNat + w.bytes) := by omega
      simp only [advance_mem, setMem_mem]
      rw [read_writeLE, if_neg hr]

/-- What a load answers, whole. -/
theorem load_answers (w : Width) (dest : Reg) (b o : Word) (s : State) :
    LoadAnswers (load config w dest b o s) s w (b + o) dest := by
  rw [load_config]
  rcases memRead_cases s (b + o) w with ⟨h, e⟩ | ⟨h, h', e⟩ | ⟨h, h', hn, e⟩ | ⟨h, h', v, hv, e⟩ <;> rw [e]
  · exact ⟨fun _ => rfl, fun h0 => absurd h0 h, fun h0 => absurd h0 h⟩
  · exact ⟨fun h0 => absurd h h0, fun _ _ => rfl, fun _ h1 => absurd h1 (by omega)⟩
  · refine ⟨fun h0 => absurd h h0, fun _ h1 => absurd h1 (by omega), fun _ _ u hu => ?_⟩
    rw [readLE_of_bytes _ _ _ u (bytes_le w) hu.1 hu.2] at hn
    exact absurd hn (by simp)
  · refine ⟨fun h0 => absurd h h0, fun _ h1 => absurd h1 (by omega), fun _ _ u hu => ?_⟩
    rw [readLE_of_bytes _ _ _ u (bytes_le w) hu.1 hu.2] at hv
    obtain rfl : u = v := by simpa using hv
    exact writeBack_writes dest u s

/-- A store that completes. -/
theorem store_next {w : Width} {v b o : Word} {s t : State} (h : store config w v b o s = .next t) :
    (b + o).toNat % w.bytes = 0 ∧ (b + o).toNat ≤ 0x000FFFFF ∧
      t = (s.setMem (Memory.writeLE s.mem (b + o).toNat w.bytes v)).advance config := by
  rw [store_config] at h
  rcases memWrite_cases s (b + o) w v with ⟨_, e⟩ | ⟨_, _, e⟩ | ⟨h1, h2, e⟩ <;> rw [e] at h
  · simp at h
  · simp at h
  · simp only [orRaise_ok, Host.Outcome.next.injEq] at h
    exact ⟨h1, h2, h.symm⟩

/-- A load that completes. -/
theorem load_next {w : Width} {dest : Reg} {b o : Word} {s t : State} (h : load config w dest b o s = .next t) :
    (b + o).toNat % w.bytes = 0 ∧ (b + o).toNat ≤ 0x000FFFFF ∧
      ∃ v, Memory.readLE s.mem (b + o).toNat w.bytes = some v ∧ t = (s.setReg dest v).advance config := by
  rw [load_config] at h
  rcases memRead_cases s (b + o) w with ⟨_, e⟩ | ⟨_, _, e⟩ | ⟨_, _, _, e⟩ | ⟨h1, h2, v, hv, e⟩ <;> rw [e] at h
  · simp at h
  · simp at h
  · simp at h
  · simp only [orRaise_ok, writeBack, Host.Outcome.next.injEq] at h
    exact ⟨h1, h2, v, hv, h.symm⟩

/-- A store that faults. -/
theorem store_fault {w : Width} {v b o : Word} {s : State} {f : Fault} (h : store config w v b o s = .fault f) :
    (f = .misalignedAccess s.pc (b + o) w .store ∧ (b + o).toNat % w.bytes ≠ 0) ∨
      (f = .accessOutOfRange s.pc (b + o) w .store ∧ (b + o).toNat % w.bytes = 0 ∧ 0x000FFFFF < (b + o).toNat) := by
  rw [store_config] at h
  rcases memWrite_cases s (b + o) w v with ⟨h1, e⟩ | ⟨h1, h2, e⟩ | ⟨_, _, e⟩ <;> rw [e] at h <;> simp at h
  · exact .inl ⟨h.symm, h1⟩
  · exact .inr ⟨h.symm, h1, h2⟩

/-- A load that faults. -/
theorem load_fault {w : Width} {dest : Reg} {b o : Word} {s : State} {f : Fault}
    (h : load config w dest b o s = .fault f) :
    (f = .misalignedAccess s.pc (b + o) w .load ∧ (b + o).toNat % w.bytes ≠ 0) ∨
      (f = .accessOutOfRange s.pc (b + o) w .load ∧ (b + o).toNat % w.bytes = 0 ∧ 0x000FFFFF < (b + o).toNat) ∨
      (f = .unwrittenRead s.pc (b + o) w ∧ ∃ k, k < w.bytes ∧ Memory.read s.mem ((b + o).toNat + k) = none) := by
  rw [load_config] at h
  rcases memRead_cases s (b + o) w with ⟨h1, e⟩ | ⟨h1, h2, e⟩ | ⟨_, _, hn, e⟩ | ⟨_, _, v, _, e⟩ <;> rw [e] at h <;>
    simp [writeBack] at h
  · exact .inl ⟨h.symm, h1⟩
  · exact .inr (.inl ⟨h.symm, h1, h2⟩)
  · exact .inr (.inr ⟨h.symm, (readLE_eq_none _ _ _).1 hn⟩)

theorem store_not_refused (w : Width) (v b o : Word) (s : State) (r : Refusal) :
    store config w v b o s ≠ .refused r := by
  rw [store_config]
  rcases memWrite_cases s (b + o) w v with ⟨_, e⟩ | ⟨_, _, e⟩ | ⟨_, _, e⟩ <;> rw [e] <;> simp

theorem load_not_refused (w : Width) (dest : Reg) (b o : Word) (s : State) (r : Refusal) :
    load config w dest b o s ≠ .refused r := by
  rw [load_config]
  rcases memRead_cases s (b + o) w with ⟨_, e⟩ | ⟨_, _, e⟩ | ⟨_, _, _, e⟩ | ⟨_, _, v, _, e⟩ <;> rw [e] <;>
    simp [writeBack]

/-! Division. -/

theorem quotient_config (pc a b : Word) : quotient config pc a b =
    if b = 0#32 then .error (.divideByZero pc) else .ok (BitVec.ofInt 32 (Int.tdiv a.toInt b.toInt)) := by
  simp [quotient]

theorem remainder_config (pc a b : Word) : remainder config pc a b =
    if b = 0#32 then .error (.divideByZero pc) else .ok (BitVec.ofInt 32 (Int.tmod a.toInt b.toInt)) := by
  simp [remainder]

/-! Fetch and step. -/

/-- A fetch that succeeds. -/
theorem fetchWord_ok {s : State} {insn : Word} : fetchWord s = .ok insn ↔
    s.pc.toNat % 4 = 0 ∧ s.pc.toNat ≤ 0x000FFFFC ∧ Memory.readLE s.mem s.pc.toNat 4 = some insn := by
  unfold fetchWord
  constructor
  · intro h
    split at h
    · simp at h
    · split at h
      · simp at h
      · rename_i h1 h2
        simp only [ramLast] at h2
        split at h
        · rename_i v hv
          simp only [Except.ok.injEq] at h
          exact ⟨by omega, by omega, h ▸ hv⟩
        · simp at h
  · rintro ⟨h1, h2, h3⟩
    have h4 : ¬s.pc.toNat + 3 > ramLast := by simp only [ramLast]; omega
    simp [h1, h4, h3]

/-- A fetch that faults. -/
theorem fetchWord_error {s : State} {f : Fault} (h : fetchWord s = .error f) :
    (f = .misalignedFetch s.pc ∧ s.pc.toNat % 4 ≠ 0) ∨
      (f = .fetchOutOfRange s.pc ∧ s.pc.toNat % 4 = 0 ∧ 0x000FFFFC < s.pc.toNat) ∨
      (f = .unwrittenFetch s.pc ∧ s.pc.toNat % 4 = 0 ∧ s.pc.toNat ≤ 0x000FFFFC ∧
        ∃ k, k < 4 ∧ Memory.read s.mem (s.pc.toNat + k) = none) := by
  unfold fetchWord at h
  split at h
  · rename_i h1
    simp only [Except.error.injEq] at h
    exact .inl ⟨h.symm, h1⟩
  · split at h
    · rename_i h1 h2
      simp only [Except.error.injEq] at h
      simp only [ramLast] at h2
      exact .inr (.inl ⟨h.symm, by omega, by omega⟩)
    · rename_i h1 h2
      simp only [ramLast] at h2
      split at h
      · simp at h
      · rename_i hn
        simp only [Except.error.injEq] at h
        exact .inr (.inr ⟨h.symm, by omega, by omega, (readLE_eq_none _ _ _).1 hn⟩)

/-- A step that gets past its fetch and its decode is its instruction. -/
theorem step_of_decode {s : State} {insn : Word} {i : Instr} (hf : fetchWord s = .ok insn)
    (hd : decodeWord config insn = .ok i) : step s = exec i s := by
  simp [step, hf, hd]

/-- A step on a word that is no instruction. -/
theorem step_of_illegal {s : State} {insn : Word} {why : DecodeError} (hf : fetchWord s = .ok insn)
    (hd : decodeWord config insn = .error why) : step s = .fault (.illegalInstruction s.pc insn) := by
  simp [step, hf, hd, illegal, raise]

/-- What every step is: a fetch fault, an illegal word, or an instruction run. -/
theorem step_cases (s : State) :
    (∃ f, fetchWord s = .error f ∧ step s = .fault f) ∨
    (∃ insn why, fetchWord s = .ok insn ∧ decodeWord config insn = .error why ∧
      step s = .fault (.illegalInstruction s.pc insn)) ∨
    (∃ insn i, fetchWord s = .ok insn ∧ decodeWord config insn = .ok i ∧ step s = exec i s) := by
  cases hf : fetchWord s with
  | error f => exact .inl ⟨f, rfl, by simp [step, hf]⟩
  | ok insn =>
    cases hd : decodeWord config insn with
    | error why => exact .inr (.inl ⟨insn, why, rfl, hd, step_of_illegal hf hd⟩)
    | ok i => exact .inr (.inr ⟨insn, i, rfl, hd, step_of_decode hf hd⟩)

end Sys2Proof.Machine
end

