-- ==== Sys2Proof/Laws/Exec.lean ====
section
/-! SUPPORT. What an instruction that completes did, said once for all 46: it set the PC, or computed one register, or
stored. Frames and invariants follow from this lemma without unfolding a meaning. Beside it, once each: what a jump
answers by its target, what a store and a load answer by their access, and how a run is extended at its start. -/

namespace Sys2Proof.Machine

/-- The three shapes of a completed instruction. -/
def CompletedAs (i : Instr) (s t : State) : Prop :=
  (isJump i = true ∧ destOf i = none ∧ accessOf i s = none ∧ ∃ p, t = s.setPc p) ∨
  (isJump i = false ∧ (∃ d v, destOf i = some d ∧ t = (s.setReg d v).advance config) ∧
    ∀ w ea, accessOf i s ≠ some (.store, w, ea)) ∨
  (isJump i = false ∧ destOf i = none ∧ ∃ w ea v, accessOf i s = some (.store, w, ea) ∧ ea.toNat % w.bytes = 0 ∧
    ea.toNat ≤ 0x000FFFFF ∧ t = (s.setMem (Memory.writeLE s.mem ea.toNat w.bytes v)).advance config)

theorem completed_jump {i : Instr} {s t : State} {p : Word} (h : (.next (s.setPc p) : Result) = .next t)
    (hj : isJump i = true) (hd : destOf i = none) (ha : accessOf i s = none) : CompletedAs i s t :=
  .inl ⟨hj, hd, ha, p, by simpa using h.symm⟩

theorem completed_writeBack {i : Instr} {s t : State} {d : Reg} {v : Word}
    (h : writeBack config d v s = .next t) (hj : isJump i = false) (hd : destOf i = some d)
    (ha : ∀ w ea, accessOf i s ≠ some (.store, w, ea)) : CompletedAs i s t :=
  .inr (.inl ⟨hj, ⟨d, v, hd, by simpa [writeBack] using h.symm⟩, ha⟩)

theorem completed_load {i : Instr} {s t : State} {w : Width} {d : Reg} {b o : Word}
    (h : load config w d b o s = .next t) (hj : isJump i = false) (hd : destOf i = some d)
    (ha : ∀ w ea, accessOf i s ≠ some (.store, w, ea)) : CompletedAs i s t :=
  let ⟨_, _, v, _, e⟩ := load_next h
  .inr (.inl ⟨hj, ⟨d, v, hd, e⟩, ha⟩)

theorem completed_store {i : Instr} {s t : State} {w : Width} {v b o : Word}
    (h : store config w v b o s = .next t) (hj : isJump i = false) (hd : destOf i = none)
    (ha : accessOf i s = some (.store, w, b + o)) : CompletedAs i s t :=
  let ⟨h1, h2, e⟩ := store_next h
  .inr (.inr ⟨hj, hd, w, b + o, v, ha, h1, h2, e⟩)

theorem completed_orRaise {i : Instr} {s t : State} {y : Except Fault Word} {d : Reg}
    (h : (orRaise y fun v => writeBack config d v s) = .next t) (hj : isJump i = false) (hd : destOf i = some d)
    (ha : ∀ w ea, accessOf i s ≠ some (.store, w, ea)) : CompletedAs i s t :=
  let ⟨_, _, e⟩ := orRaise_next.1 h
  completed_writeBack e hj hd ha

/-- Every instruction that completes did one of the three things. -/
theorem exec_next {i : Instr} {s t : State} (h : exec i s = .next t) : CompletedAs i s t := by
  cases i with
  | jmp b o => exact completed_jump h rfl rfl rfl
  | jmpi b o => exact completed_jump h rfl rfl rfl
  | jmpc b o c => exact completed_jump ((jumpIf_config _ _ _ s).symm.trans h) rfl rfl rfl
  | jmpic b o c => exact completed_jump ((jumpIf_config _ _ _ s).symm.trans h) rfl rfl rfl
  | stb a b o => exact completed_store h rfl rfl rfl
  | sth a b o => exact completed_store h rfl rfl rfl
  | stw a b o => exact completed_store h rfl rfl rfl
  | stbi a b o => exact completed_store h rfl rfl rfl
  | sthi a b o => exact completed_store h rfl rfl rfl
  | stwi a b o => exact completed_store h rfl rfl rfl
  | ldb d b o => exact completed_load h rfl rfl (by simp [accessOf])
  | ldh d b o => exact completed_load h rfl rfl (by simp [accessOf])
  | ldw d b o => exact completed_load h rfl rfl (by simp [accessOf])
  | ldbi d b o => exact completed_load h rfl rfl (by simp [accessOf])
  | ldhi d b o => exact completed_load h rfl rfl (by simp [accessOf])
  | ldwi d b o => exact completed_load h rfl rfl (by simp [accessOf])
  | div d a b => exact completed_orRaise h rfl rfl (by simp [accessOf])
  | divi d a b => exact completed_orRaise h rfl rfl (by simp [accessOf])
  | mod d a b => exact completed_orRaise h rfl rfl (by simp [accessOf])
  | modi d a b => exact completed_orRaise h rfl rfl (by simp [accessOf])
  | bsr d a b => exact completed_writeBack h rfl rfl (by simp [accessOf])
  | bsl d a b => exact completed_writeBack h rfl rfl (by simp [accessOf])
  | _ => exact completed_writeBack h rfl rfl (by simp [accessOf])

/-- A jump that is executed sets the PC to its target and does nothing else. -/
theorem exec_jump {i : Instr} {s : State} {p : Word} (h : jumpTargetOf i s = some p) :
    exec i s = .next (s.setPc p) := by
  cases i with
  | jmp b o => simpa [jumpTargetOf, exec, execJmp, jump_config] using congrArg s.setPc (Option.some.inj h)
  | jmpi b o => simpa [jumpTargetOf, exec, execJmpi, jump_config] using congrArg s.setPc (Option.some.inj h)
  | jmpc b o c =>
    by_cases hc : s.reg c = 0#32
    · simp [jumpTargetOf, hc] at h
    · simp only [jumpTargetOf, if_neg hc, Option.some.injEq] at h
      exact (jumpIf_config _ _ _ s).trans (by rw [if_neg hc, h])
  | jmpic b o c =>
    by_cases hc : s.reg c = 0#32
    · simp [jumpTargetOf, hc] at h
    · simp only [jumpTargetOf, if_neg hc, Option.some.injEq] at h
      exact (jumpIf_config _ _ _ s).trans (by rw [if_neg hc, jumpOffset_config, h])
  | _ => simp [jumpTargetOf] at h

/-- What is no taken jump, if it completes, advances the PC. -/
theorem exec_no_jump {i : Instr} {s t : State} (hj : jumpTargetOf i s = none) (h : exec i s = .next t) :
    t.pc = s.pc + 4#32 := by
  rcases exec_next h with ⟨hi, _⟩ | ⟨_, ⟨d, v, _, rfl⟩, _⟩ | ⟨_, _, w, ea, v, _, _, _, rfl⟩
  · cases i with
    | jmp b o => simp [jumpTargetOf] at hj
    | jmpi b o => simp [jumpTargetOf] at hj
    | jmpc b o c =>
      have hc : s.reg c = 0#32 := by simpa [jumpTargetOf] using hj
      have e := (jumpIf_config (s.reg c) (s.reg b) (s.reg o) s).symm.trans h
      rw [if_pos hc, Host.Outcome.next.injEq] at e
      rw [← e, setPc_pc]
    | jmpic b o c =>
      have hc : s.reg c = 0#32 := by simpa [jumpTargetOf] using hj
      have e := (jumpIf_config (s.reg c) (s.reg b) (jumpOffset config o) s).symm.trans h
      rw [if_pos hc, Host.Outcome.next.injEq] at e
      rw [← e, setPc_pc]
    | _ => simp [isJump, Instr.mnemonic] at hi
  · rfl
  · rfl

/-- What a store answers, by its access and the register it stores. -/
theorem exec_store_answers {i : Instr} {s : State} {w : Width} {ea : Word} {src : Reg}
    (ha : accessOf i s = some (.store, w, ea)) (hs : storedOf i = some src) :
    StoreAnswers (exec i s) s w ea (s.reg src) := by
  cases i <;> simp only [accessOf, storedOf, reduceCtorEq, Option.some.injEq, Prod.mk.injEq, false_and, true_and] at ha hs
  all_goals
    obtain ⟨rfl, rfl⟩ := ha
    obtain rfl := hs
    exact store_answers _ _ _ _ _

/-- What a load answers, by its access and its destination. -/
theorem exec_load_answers {i : Instr} {s : State} {w : Width} {ea : Word} {dest : Reg}
    (ha : accessOf i s = some (.load, w, ea)) (hd : destOf i = some dest) :
    LoadAnswers (exec i s) s w ea dest := by
  cases i <;> simp only [accessOf, destOf, reduceCtorEq, Option.some.injEq, Prod.mk.injEq, false_and, true_and] at ha hd
  all_goals
    obtain ⟨rfl, rfl⟩ := ha
    obtain rfl := hd
    exact load_answers _ _ _ _ _

/-- A run is one step longer at its start when the start does not halt. -/
theorem RunsTo.prepend {halt : State → Bool} {s t u : State} {n : Nat} (hs : halt s = false) (h : step s = .next t)
    (hr : RunsTo halt t n u) : RunsTo halt s (n + 1) u := by
  induction hr with
  | start => exact .next .start hs h
  | next _ hu hn ih => exact .next ih hu hn

end Sys2Proof.Machine
end

