-- ==== Sys2Proof/Laws/PerInstr.lean ====
section
/-! SUPPORT. Statements for all instructions, one lemma per constructor of `Instr`. -/

namespace Sys2Proof.Laws.EncodesItsRow

/-- The canonical word of an instruction lies in the instruction's own row of the opcode table
(spec/30_encoding.md section 4: a word `w` is the mnemonic of a row when `w & mask = match`). -/
def Statement (i : Instr) : Prop :=
  encode Machine.config i &&& (opcodeRow i.mnemonic).mask = (opcodeRow i.mnemonic).pattern

theorem jmp (base off : Reg) : Statement (.jmp base off) :=
  (wordJ_and_1F _ _ _ _).trans rfl

theorem jmpi (base : Reg) (imm : BitVec 21) : Statement (.jmpi base imm) :=
  (wordJ_and_1F _ _ _ _).trans rfl

theorem jmpc (base off ctrl : Reg) : Statement (.jmpc base off ctrl) :=
  (wordJ_and_1F _ _ _ _).trans rfl

theorem jmpic (base : Reg) (imm : BitVec 21) (ctrl : Reg) : Statement (.jmpic base imm ctrl) :=
  (wordJ_and_1F _ _ _ _).trans rfl

theorem stb (src base off : Reg) : Statement (.stb src base off) :=
  (wordM_and_7F _ _ _ _).trans rfl

theorem sth (src base off : Reg) : Statement (.sth src base off) :=
  (wordM_and_7F _ _ _ _).trans rfl

theorem stw (src base off : Reg) : Statement (.stw src base off) :=
  (wordM_and_7F _ _ _ _).trans rfl

theorem stbi (src base : Reg) (imm : BitVec 19) : Statement (.stbi src base imm) :=
  (wordM_and_7F _ _ _ _).trans rfl

theorem sthi (src base : Reg) (imm : BitVec 19) : Statement (.sthi src base imm) :=
  (wordM_and_7F _ _ _ _).trans rfl

theorem stwi (src base : Reg) (imm : BitVec 19) : Statement (.stwi src base imm) :=
  (wordM_and_7F _ _ _ _).trans rfl

theorem ldb (dest base off : Reg) : Statement (.ldb dest base off) :=
  (wordM_and_7F _ _ _ _).trans rfl

theorem ldh (dest base off : Reg) : Statement (.ldh dest base off) :=
  (wordM_and_7F _ _ _ _).trans rfl

theorem ldw (dest base off : Reg) : Statement (.ldw dest base off) :=
  (wordM_and_7F _ _ _ _).trans rfl

theorem ldbi (dest base : Reg) (imm : BitVec 19) : Statement (.ldbi dest base imm) :=
  (wordM_and_7F _ _ _ _).trans rfl

theorem ldhi (dest base : Reg) (imm : BitVec 19) : Statement (.ldhi dest base imm) :=
  (wordM_and_7F _ _ _ _).trans rfl

theorem ldwi (dest base : Reg) (imm : BitVec 19) : Statement (.ldwi dest base imm) :=
  (wordM_and_7F _ _ _ _).trans rfl

theorem set (dest : Reg) (val : BitVec 25) : Statement (.set dest val) :=
  (wordS_and_0F _ _ _).trans rfl

theorem setn (dest : Reg) (val : BitVec 25) : Statement (.setn dest val) :=
  (wordS_and_0F _ _ _).trans rfl

theorem setu (dest : Reg) (val : BitVec 6) : Statement (.setu dest val) :=
  (layoutU_and_07 _ _ _ _).trans rfl

theorem add (dest src1 src2 : Reg) : Statement (.add dest src1 src2) :=
  (wordM_and_7F _ _ _ _).trans rfl

theorem addi (dest src : Reg) (imm : BitVec 19) : Statement (.addi dest src imm) :=
  (wordM_and_7F _ _ _ _).trans rfl

theorem sub (dest src1 src2 : Reg) : Statement (.sub dest src1 src2) :=
  (wordM_and_7F _ _ _ _).trans rfl

theorem subi (dest src : Reg) (imm : BitVec 19) : Statement (.subi dest src imm) :=
  (wordM_and_7F _ _ _ _).trans rfl

theorem mul (dest src1 src2 : Reg) : Statement (.mul dest src1 src2) :=
  (wordM_and_7F _ _ _ _).trans rfl

theorem muli (dest src : Reg) (imm : BitVec 19) : Statement (.muli dest src imm) :=
  (wordM_and_7F _ _ _ _).trans rfl

theorem div (dest src1 src2 : Reg) : Statement (.div dest src1 src2) :=
  (wordM_and_7F _ _ _ _).trans rfl

theorem divi (dest src : Reg) (imm : BitVec 19) : Statement (.divi dest src imm) :=
  (wordM_and_7F _ _ _ _).trans rfl

theorem mod (dest src1 src2 : Reg) : Statement (.mod dest src1 src2) :=
  (wordM_and_7F _ _ _ _).trans rfl

theorem modi (dest src : Reg) (imm : BitVec 19) : Statement (.modi dest src imm) :=
  (wordM_and_7F _ _ _ _).trans rfl

theorem and (dest src1 src2 : Reg) : Statement (.and dest src1 src2) :=
  (wordM_and_3F _ _ _ _).trans rfl

theorem andi (dest src : Reg) (imm : BitVec 19) : Statement (.andi dest src imm) :=
  (wordM_and_7F _ _ _ _).trans rfl

theorem andf (dest src : Reg) (imm : BitVec 19) : Statement (.andf dest src imm) :=
  (wordM_and_7F _ _ _ _).trans rfl

theorem or (dest src1 src2 : Reg) : Statement (.or dest src1 src2) :=
  (wordM_and_3F _ _ _ _).trans rfl

theorem ori (dest src : Reg) (imm : BitVec 19) : Statement (.ori dest src imm) :=
  (wordM_and_7F _ _ _ _).trans rfl

theorem orf (dest src : Reg) (imm : BitVec 19) : Statement (.orf dest src imm) :=
  (wordM_and_7F _ _ _ _).trans rfl

theorem xor (dest src1 src2 : Reg) : Statement (.xor dest src1 src2) :=
  (wordM_and_3F _ _ _ _).trans rfl

theorem xori (dest src : Reg) (imm : BitVec 19) : Statement (.xori dest src imm) :=
  (wordM_and_7F _ _ _ _).trans rfl

theorem xorf (dest src : Reg) (imm : BitVec 19) : Statement (.xorf dest src imm) :=
  (wordM_and_7F _ _ _ _).trans rfl

theorem bsr (dest src amount : Reg) : Statement (.bsr dest src amount) :=
  (layoutH_and_3F _ _ _ _ _).trans rfl

theorem bsri (dest src : Reg) (imm : BitVec 5) : Statement (.bsri dest src imm) :=
  (layoutH_and_3F _ _ _ _ _).trans rfl

theorem bsrr (dest src amount : Reg) : Statement (.bsrr dest src amount) :=
  (layoutH_and_3F _ _ _ _ _).trans rfl

theorem bsrri (dest src : Reg) (imm : BitVec 5) : Statement (.bsrri dest src imm) :=
  (layoutH_and_3F _ _ _ _ _).trans rfl

theorem bsl (dest src amount : Reg) : Statement (.bsl dest src amount) :=
  (layoutH_and_3F _ _ _ _ _).trans rfl

theorem bsli (dest src : Reg) (imm : BitVec 5) : Statement (.bsli dest src imm) :=
  (layoutH_and_3F _ _ _ _ _).trans rfl

theorem bslr (dest src amount : Reg) : Statement (.bslr dest src amount) :=
  (layoutH_and_3F _ _ _ _ _).trans rfl

theorem bslri (dest src : Reg) (imm : BitVec 5) : Statement (.bslri dest src imm) :=
  (layoutH_and_3F _ _ _ _ _).trans rfl

end Sys2Proof.Laws.EncodesItsRow
end

