-- ==== Sys2Proof/Tests/Slice0.lean ====
section
/-! SUPPORT. Tests. The expected results are the spec's own worked examples: the example words of its rules and the
vectors of spec/95_test_vectors.md (named by their ids), nothing the model answered. Then, for each statement with
hypotheses, a witness: concrete values that meet them, at the boundaries of their ranges. -/

namespace Sys2Proof.Tests

open Sys2Proof Sys2Proof.Machine

/-! Helpers: a small state at pc 0x40, and what one instruction word does to it. -/

/-- A state with the pc, registers and bytes given, every other register 0. -/
def at_ (pc : Word) (regs : List (Reg × Word)) (bytes : List Host.Cell := []) : State where
  pc := pc
  regs := regs.foldl (fun rs p => rs.set p.1 p.2) Regs.reset
  mem := Memory.load [] bytes

/-- The state at pc 0x40 of spec/95_test_vectors.md. -/
def s40 (regs : List (Reg × Word)) (bytes : List Host.Cell := []) : State := at_ 0x40#32 regs bytes

/-- What the instruction of a word answers; a word that is no instruction answers nothing. -/
def run (w : Word) (s : State) : Option Result :=
  match decodeWord config w with
  | .ok i => some (exec i s)
  | .error _ => none

/-- The next state of an answer. -/
def nextOf : Result → Option State
  | .next t => some t
  | _ => none

/-- The fault of an answer. -/
def faultOf : Result → Option Fault
  | .fault f => some f
  | _ => none

/-- The pc and one register after the instruction of a word. -/
def pcReg (w : Word) (s : State) (r : Reg) : Option (Word × Word) :=
  (run w s).bind nextOf |>.map (fun t => (t.pc, t.reg r))

/-- The pc and some bytes after the instruction of a word. -/
def pcBytes (w : Word) (s : State) (addrs : List Nat) : Option (Word × List (Option Byte)) :=
  (run w s).bind nextOf |>.map (fun t => (t.pc, addrs.map (Memory.read t.mem)))

/-- The fault the instruction of a word raises. -/
def faults (w : Word) (s : State) : Option Fault := (run w s).bind faultOf

theorem exists_next {o : Result} (h : (nextOf o).isSome = true) : ∃ t, o = .next t := by
  cases o with
  | next t => exact ⟨t, rfl⟩
  | _ => simp [nextOf] at h

theorem eq_fault {o : Result} {f : Fault} (h : faultOf o = some f) : o = .fault f := by
  cases o with
  | fault g => simpa [faultOf] using h
  | _ => simp [faultOf] at h

/-! Decoding: for every constructor a word written out in the spec (the example of its rule, or a vector). -/

theorem test_decode_jump_group :
    decodeWord config 0x00000800#32 = .ok (.jmp .r1 .r2) ∧
    decodeWord config 0x00020008#32 = .ok (.jmpi .r1 0x40#21) ∧
    decodeWord config 0x00001330#32 = .ok (.jmpc .r2 .r3 .r4) ∧
    decodeWord config 0x00080118#32 = .ok (.jmpic .r1 0x100#21 .r2) ∧
    decodeWord config 0xFFFFFFF8#32 = .ok (.jmpic .r8 0x1FFFFF#21 .r8) := by decide

theorem test_decode_stores :
    decodeWord config 0x00004401#32 = .ok (.stb .r1 .r2 .r3) ∧
    decodeWord config 0x00004411#32 = .ok (.sth .r1 .r2 .r3) ∧
    decodeWord config 0x00004421#32 = .ok (.stw .r1 .r2 .r3) ∧
    decodeWord config 0x0000A441#32 = .ok (.stbi .r1 .r2 5#19) ∧
    decodeWord config 0x0000C451#32 = .ok (.sthi .r1 .r2 6#19) ∧
    decodeWord config 0x00010461#32 = .ok (.stwi .r1 .r2 8#19) ∧
    decodeWord config 0xFFFFFFE1#32 = .ok (.stwi .r8 .r8 0x7FFFF#19) := by decide

theorem test_decode_loads :
    decodeWord config 0x00004589#32 = .ok (.ldb .r4 .r2 .r3) ∧
    decodeWord config 0x00004599#32 = .ok (.ldh .r4 .r2 .r3) ∧
    decodeWord config 0x000045A9#32 = .ok (.ldw .r4 .r2 .r3) ∧
    decodeWord config 0x0000A5C9#32 = .ok (.ldbi .r4 .r2 5#19) ∧
    decodeWord config 0x0000C5D9#32 = .ok (.ldhi .r4 .r2 6#19) ∧
    decodeWord config 0x000105E9#32 = .ok (.ldwi .r4 .r2 8#19) := by decide

theorem test_decode_set_group :
    decodeWord config 0x00000282#32 = .ok (.set .r1 5#25) ∧
    decodeWord config 0x80000072#32 = .ok (.set .r8 0x1000000#25) ∧
    decodeWord config 0xFFFFFF8A#32 = .ok (.setn .r1 0x1FFFFFF#25) ∧
    decodeWord config 0x00000FC3#32 = .ok (.setu .r1 0x3F#6) ∧
    decodeWord config 0x0000007B#32 = .ok (.setu .r8 1#6) := by decide

theorem test_decode_arithmetic :
    decodeWord config 0x00004404#32 = .ok (.add .r1 .r2 .r3) ∧
    decodeWord config 0x000C8444#32 = .ok (.addi .r1 .r2 100#19) ∧
    decodeWord config 0x0000440C#32 = .ok (.sub .r1 .r2 .r3) ∧
    decodeWord config 0x0000244C#32 = .ok (.subi .r1 .r2 1#19) ∧
    decodeWord config 0x00004414#32 = .ok (.mul .r1 .r2 .r3) ∧
    decodeWord config 0x00014454#32 = .ok (.muli .r1 .r2 10#19) ∧
    decodeWord config 0x0000441C#32 = .ok (.div .r1 .r2 .r3) ∧
    decodeWord config 0x0000E45C#32 = .ok (.divi .r1 .r2 7#19) ∧
    decodeWord config 0x00004424#32 = .ok (.mod .r1 .r2 .r3) ∧
    decodeWord config 0x0000E464#32 = .ok (.modi .r1 .r2 7#19) := by decide

theorem test_decode_bitwise :
    decodeWord config 0x00004405#32 = .ok (.and .r1 .r2 .r3) ∧
    decodeWord config 0x001FE425#32 = .ok (.andi .r1 .r2 0xFF#19) ∧
    decodeWord config 0xFFE00465#32 = .ok (.andf .r1 .r2 0x7FF00#19) ∧
    decodeWord config 0x0000440D#32 = .ok (.or .r1 .r2 .r3) ∧
    decodeWord config 0x0010042D#32 = .ok (.ori .r1 .r2 0x80#19) ∧
    decodeWord config 0xFFFFE46D#32 = .ok (.orf .r1 .r2 0x7FFFF#19) ∧
    decodeWord config 0x00004415#32 = .ok (.xor .r1 .r2 .r3) ∧
    decodeWord config 0x00002435#32 = .ok (.xori .r1 .r2 1#19) ∧
    decodeWord config 0xFFFFE475#32 = .ok (.xorf .r1 .r2 0x7FFFF#19) := by decide

theorem test_decode_shifts :
    decodeWord config 0x00002206#32 = .ok (.bsr .r1 .r2 .r3) ∧
    decodeWord config 0x00004216#32 = .ok (.bsri .r1 .r2 4#5) ∧
    decodeWord config 0x00002226#32 = .ok (.bsrr .r1 .r2 .r3) ∧
    decodeWord config 0x00008236#32 = .ok (.bsrri .r1 .r2 8#5) ∧
    decodeWord config 0x0000220E#32 = .ok (.bsl .r1 .r2 .r3) ∧
    decodeWord config 0x0000421E#32 = .ok (.bsli .r1 .r2 4#5) ∧
    decodeWord config 0x0000222E#32 = .ok (.bslr .r1 .r2 .r3) ∧
    decodeWord config 0x0001FFFE#32 = .ok (.bslri .r8 .r8 31#5) := by decide

/-- VD1, VD7 to VD12: the words of the op codes alone. -/
theorem test_decode_op_codes_alone :
    decodeWord config 0#32 = .ok (.jmp .r1 .r1) ∧ decodeWord config 1#32 = .ok (.stb .r1 .r1 .r1) ∧
    decodeWord config 2#32 = .ok (.set .r1 0#25) ∧ decodeWord config 3#32 = .ok (.setu .r1 0#6) ∧
    decodeWord config 4#32 = .ok (.add .r1 .r1 .r1) ∧ decodeWord config 5#32 = .ok (.and .r1 .r1 .r1) ∧
    decodeWord config 6#32 = .ok (.bsr .r1 .r1 .r1) := by decide

/-- VJ6, VU8, VA32, VB21, VH25, VH26: bits no rule reads are ignored. -/
theorem test_decode_ignored_bits :
    decodeWord config 0xFFFFCF00#32 = .ok (.jmp .r1 .r2) ∧ decodeWord config 0xFFFFFFC3#32 = .ok (.setu .r1 0x3F#6) ∧
    decodeWord config 0xFFFF4404#32 = .ok (.add .r1 .r2 .r3) ∧
    decodeWord config 0x00004445#32 = .ok (.and .r1 .r2 .r3) ∧
    decodeWord config 0xFFFE4216#32 = .ok (.bsri .r1 .r2 4#5) ∧
    decodeWord config 0x0001A206#32 = .ok (.bsr .r1 .r2 .r3) := by decide

/-- The same words under `STRICT_DONT_CARE`: refused; their canonical words: read. -/
theorem test_strict_decoder :
    decodeWord { config with strictDontCare := true } 0xFFFFCF00#32 = .error .nonCanonical ∧
    decodeWord { config with strictDontCare := true } 0x00001FC3#32 = .error .nonCanonical ∧
    decodeWord { config with strictDontCare := true } 0x00004404#32 = .ok (.add .r1 .r2 .r3) := by decide

/-- VD2 to VD6, VM30, VM31, VA29 to VA31, VB22, VB23: words that are no instruction. -/
theorem test_decode_illegal :
    decodeWord config 0xFFFFFFFF#32 = .error .unusedOpCode ∧ decodeWord config 7#32 = .error .unusedOpCode ∧
    decodeWord config 0x00000031#32 = .error .unusedWidth ∧ decodeWord config 0x00004431#32 = .error .unusedWidth ∧
    decodeWord config 0x00004479#32 = .error .unusedWidth ∧ decodeWord config 0x0000002C#32 = .error .unusedArithmetic ∧
    decodeWord config 0x00004474#32 = .error .unusedArithmetic ∧
    decodeWord config 0x0000443C#32 = .error .unusedArithmetic ∧
    decodeWord config 0x0000001D#32 = .error .unusedBitwise ∧
    decodeWord config 0x0000447D#32 = .error .unusedBitwise := by decide

/-- The spec's count over the low seven bits: 98 legal patterns and 30 illegal ones. -/
theorem test_decode_classes :
    ((List.range 128).filter (fun n => (decodeWord config (BitVec.ofNat 32 n)).toBool)).length = 98 := by decide

/-- Bytes, lowest address first; too few of them are refused. -/
theorem test_decode_bytes :
    decodeBytes config [0x82#8, 0x02#8, 0#8, 0#8, 9#8] = .ok (.set .r1 5#25, [9#8]) ∧
    decodeBytes config [0x82#8, 0x02#8, 0#8] = .error .truncated := by decide

/-- The host's reading of a row: bits above `nbits` are zero. -/
theorem test_decodeTableWord :
    decodeTableWord 32 0xFFFFFD9A = some (.setn .r2 0x1FFFFFB#25) ∧ decodeTableWord 8 0xFFFFFF82 =
      some (.set .r1 1#25) ∧
    decodeTableWord 32 7 = none := by decide

/-! The checks of WellFormed, each with a term it refuses. -/

theorem test_asm_line :
    AsmLine.toInstr ⟨.jmpic, [.reg 1, .num 0x100, .reg 2]⟩ = some (.jmpic .r1 0x100#21 .r2) := by decide
theorem test_asm_register_0_refused : AsmLine.wellFormed ⟨.jmp, [.reg 0, .reg 1]⟩ = false := by decide
theorem test_asm_register_9_refused : AsmLine.wellFormed ⟨.jmp, [.reg 8, .reg 9]⟩ = false := by decide
theorem test_asm_number_for_register_refused : AsmLine.wellFormed ⟨.jmp, [.reg 1, .num 2]⟩ = false := by decide
theorem test_asm_register_for_number_refused : AsmLine.wellFormed ⟨.set, [.reg 1, .reg 2]⟩ = false := by decide
theorem test_asm_missing_operand_refused : AsmLine.wellFormed ⟨.add, [.reg 1, .reg 2]⟩ = false := by decide
theorem test_asm_ranges :
    AsmLine.wellFormed ⟨.set, [.reg 1, .num 0x1FFFFFF]⟩ = true ∧
    AsmLine.wellFormed ⟨.set, [.reg 1, .num 0x2000000]⟩ = false ∧
    AsmLine.wellFormed ⟨.setu, [.reg 1, .num 63]⟩ = true ∧ AsmLine.wellFormed ⟨.setu, [.reg 1, .num 64]⟩ = false ∧
    AsmLine.wellFormed ⟨.bsli, [.reg 1, .reg 1, .num 31]⟩ = true ∧
    AsmLine.wellFormed ⟨.bsli, [.reg 1, .reg 1, .num 32]⟩ = false ∧
    AsmLine.wellFormed ⟨.addi, [.reg 1, .reg 1, .num 524287]⟩ = true ∧
    AsmLine.wellFormed ⟨.addi, [.reg 1, .reg 1, .num 524288]⟩ = false ∧
    AsmLine.wellFormed ⟨.jmpi, [.reg 1, .num 0x1FFFFF]⟩ = true ∧
    AsmLine.wellFormed ⟨.jmpi, [.reg 1, .num 0x200000]⟩ = false := by decide
theorem test_assemble : assemble config ⟨.jmpc, [.reg 2, .reg 3, .reg 4]⟩ = some 0x00001330#32 := by decide
theorem test_config_wellFormed : config.wellFormed = true := by decide
theorem test_constant_register_map_refused :
    Config.regMapOk { config with regOfField := fun _ => .r1 } = false := by decide
theorem test_odd_pc_step_refused : Config.pcStepOk { config with pcStep := 2#32 } = false := by decide
theorem test_scale_2_refused : Config.scaleOk { config with jmpImmScale := 2#32 } = false := by decide
theorem test_bad_reset_pc_refused :
    Config.resetPcOk { config with resetPc := 2#32 } = false ∧
    Config.resetPcOk { config with resetPc := 0x00100000#32 } = false := by decide
theorem test_image_outside_ram_refused : imageOk [(0x000FFFFF, 1#8), (0x00100000, 2#8)] = false := by decide

/-! One instruction, on the vectors of spec/95_test_vectors.md. -/

/-- VJ1, VJ2, VJ4. -/
theorem test_jmp :
    pcReg 0x00000800#32 (s40 [(.r1, 0x100#32), (.r2, 0x20#32)]) .r2 = some (0x120#32, 0x20#32) ∧
    pcReg 0x00000800#32 (s40 [(.r1, 0x100#32), (.r2, 0xFFFFFFF0#32)]) .r1 = some (0xF0#32, 0x100#32) ∧
    pcReg 0x00001840#32 (s40 [(.r3, 0x101#32)]) .r3 = some (0x101#32, 0x101#32) := by decide

/-- VJ8, VJ9. -/
theorem test_jmpi :
    pcReg 0x00020008#32 (s40 [(.r1, 0x1000#32)]) .r1 = some (0x1040#32, 0x1000#32) ∧
    pcReg 0xFFFFF828#32 (s40 [(.r2, 0xFFE00005#32)]) .r2 = some (4#32, 0xFFE00005#32) := by decide

/-- VJ11 to VJ14. -/
theorem test_jmpc :
    pcReg 0x00001330#32 (at_ 0x10#32 [(.r2, 0x200#32), (.r3, 8#32), (.r4, 1#32)]) .r4 = some (0x208#32, 1#32) ∧
    pcReg 0x00001330#32 (at_ 0x10#32 [(.r2, 0x200#32), (.r3, 8#32)]) .r4 = some (0x14#32, 0#32) ∧
    pcReg 0x00001330#32 (at_ 0x10#32 [(.r2, 0x200#32), (.r3, 8#32), (.r4, 0x80000000#32)]) .r4 =
      some (0x208#32, 0x80000000#32) ∧
    pcReg 0x00001130#32 (at_ 0x10#32 [(.r2, 0x200#32), (.r3, 8#32)]) .r2 = some (0x208#32, 0x200#32) := by decide

/-- VJ15 to VJ18. -/
theorem test_jmpic :
    pcReg 0x00080118#32 (at_ 0x20#32 [(.r2, 5#32)]) .r2 = some (0x100#32, 5#32) ∧
    pcReg 0x00080118#32 (at_ 0x20#32 []) .r2 = some (0x24#32, 0#32) ∧
    pcReg 0xFFFFFFF8#32 (at_ 0x20#32 [(.r8, 0xFFE00101#32)]) .r8 = some (0x100#32, 0xFFE00101#32) ∧
    pcReg 0x00000018#32 (at_ 0xFFFFC#32 []) .r1 = some (0x100000#32, 0#32) := by decide

/-- VM1. -/
theorem test_stb :
    pcBytes 0x00004401#32 (s40 [(.r1, 0x12345678#32), (.r2, 0x100#32), (.r3, 3#32)]) [0x102, 0x103, 0x104] =
      some (0x44#32, [none, some 0x78#8, none]) := by decide

/-- VM2, VM3. -/
theorem test_sth :
    pcBytes 0x00004411#32 (s40 [(.r1, 0x12345678#32), (.r2, 0x100#32), (.r3, 2#32)]) [0x101, 0x102, 0x103, 0x104] =
      some (0x44#32, [none, some 0x78#8, some 0x56#8, none]) ∧
    faults 0x00004411#32 (s40 [(.r1, 0x12345678#32), (.r2, 0x100#32), (.r3, 3#32)]) =
      some (.misalignedAccess 0x40#32 0x103#32 .half .store) := by decide

/-- VM4, VM5, VM6. -/
theorem test_stw :
    pcBytes 0x00004421#32 (s40 [(.r1, 0x12345678#32), (.r2, 0x100#32), (.r3, 4#32)]) [0x104, 0x105, 0x106, 0x107, 0x108] =
      some (0x44#32, [some 0x78#8, some 0x56#8, some 0x34#8, some 0x12#8, none]) ∧
    faults 0x00004421#32 (s40 [(.r1, 0x12345678#32), (.r2, 0x100#32), (.r3, 2#32)]) =
      some (.misalignedAccess 0x40#32 0x102#32 .word .store) ∧
    pcBytes 0x00004421#32 (s40 [(.r1, 0x12345678#32), (.r2, 0x108#32), (.r3, 0xFFFFFFF8#32)]) [0x100, 0x103] =
      some (0x44#32, [some 0x78#8, some 0x12#8]) := by decide

/-- VM7, VM14, VM15. -/
theorem test_stbi :
    pcBytes 0x0000A441#32 (s40 [(.r1, 0xAB#32), (.r2, 0x100#32)]) [0x105] =
      some (0x44#32, [some 0xAB#8]) ∧
    pcBytes 0x00000441#32 (s40 [(.r1, 0xDEADBEEF#32), (.r2, 0xFFFFF#32)]) [0xFFFFF] =
      some (0x44#32, [some 0xEF#8]) ∧
    faults 0x00002441#32 (s40 [(.r1, 0xDEADBEEF#32), (.r2, 0xFFFFF#32)]) =
      some (.accessOutOfRange 0x40#32 0x100000#32 .byte .store) := by decide

/-- VM9, VM16. -/
theorem test_sthi :
    pcBytes 0x00002451#32 (s40 [(.r1, 0xBEEF#32), (.r2, 0x101#32)]) [0x102, 0x103] =
      some (0x44#32, [some 0xEF#8, some 0xBE#8]) ∧
    faults 0xFFFFE451#32 (s40 [(.r1, 0xCAFE#32), (.r2, 0x80001#32)]) =
      some (.accessOutOfRange 0x40#32 0x100000#32 .half .store) := by decide

/-- VM11, VM12, VM13, VM17. -/
theorem test_stwi :
    pcBytes 0x00000461#32 (s40 [(.r1, 0xDEADBEEF#32), (.r2, 0xFFFFC#32)]) [0xFFFFC, 0xFFFFD, 0xFFFFE, 0xFFFFF] =
      some (0x44#32, [some 0xEF#8, some 0xBE#8, some 0xAD#8, some 0xDE#8]) ∧
    faults 0x00000461#32 (s40 [(.r1, 0xDEADBEEF#32), (.r2, 0x100000#32)]) =
      some (.accessOutOfRange 0x40#32 0x100000#32 .word .store) ∧
    faults 0x00004461#32 (s40 [(.r1, 0xDEADBEEF#32), (.r2, 0x100000#32)]) =
      some (.misalignedAccess 0x40#32 0x100002#32 .word .store) ∧
    pcBytes 0x000004E1#32 (s40 [(.r2, 0x200#32)]) [0x200, 0x201, 0x202, 0x203] =
      some (0x44#32, [some 0#8, some 2#8, some 0#8, some 0#8]) := by decide

/-- VM18. -/
theorem test_ldb :
    pcReg 0x00004589#32 (s40 [(.r2, 0x100#32), (.r3, 3#32)] [(0x103, 0xF0#8)]) .r4 =
      some (0x44#32, 0xF0#32) := by decide

/-- VM19, VM20. -/
theorem test_ldh :
    pcReg 0x00004599#32 (s40 [(.r2, 0x100#32), (.r3, 2#32)] [(0x102, 0x34#8), (0x103, 0x92#8)]) .r4 =
      some (0x44#32, 0x9234#32) ∧
    faults 0x00004599#32 (s40 [(.r2, 0x100#32), (.r3, 1#32)]) =
      some (.misalignedAccess 0x40#32 0x101#32 .half .load) := by decide

/-- VM21, VM22. -/
theorem test_ldw :
    pcReg 0x000045A9#32 (s40 [(.r2, 0x100#32), (.r3, 4#32)] [(0x104, 0x78#8), (0x105, 0x56#8), (0x106, 0x34#8), (0x107, 0x12#8)]) .r4 =
      some (0x44#32, 0x12345678#32) ∧
    pcReg 0x000044A9#32 (s40 [(.r2, 0x100#32), (.r3, 4#32)] [(0x104, 0x78#8), (0x105, 0x56#8), (0x106, 0x34#8), (0x107, 0x12#8)]) .r2 =
      some (0x44#32, 0x12345678#32) := by decide

/-- VM23. -/
theorem test_ldbi :
    pcReg 0x0000A5C9#32 (s40 [(.r2, 0x100#32), (.r4, 0xFFFFFFFF#32)] [(0x105, 0xAB#8)]) .r4 =
      some (0x44#32, 0xAB#32) := by decide

/-- VM24, VM29. -/
theorem test_ldhi :
    pcReg 0x0000C5D9#32 (s40 [(.r2, 0x100#32), (.r4, 0xFFFFFFFF#32)] [(0x106, 0xEF#8), (0x107, 0xBE#8)]) .r4 =
      some (0x44#32, 0xBEEF#32) ∧
    faults 0x000005D9#32 (s40 [(.r2, 0xFFFFF#32)]) =
      some (.misalignedAccess 0x40#32 0xFFFFF#32 .half .load) := by decide

/-- VM26, VM28. -/
theorem test_ldwi :
    pcReg 0x000105E9#32 (s40 [(.r2, 0xFFFFFFFC#32)] [(4, 0x11#8), (5, 0x22#8), (6, 0x33#8), (7, 0x44#8)]) .r4 =
      some (0x44#32, 0x44332211#32) ∧
    faults 0x000005E9#32 (s40 [(.r2, 0xFFFFFFFC#32)]) =
      some (.accessOutOfRange 0x40#32 0xFFFFFFFC#32 .word .load) := by decide

/-- VS1, VS2. -/
theorem test_set :
    pcReg 0x00000282#32 (s40 [(.r1, 0xFFFFFFFF#32)]) .r1 = some (0x44#32, 5#32) ∧
    pcReg 0xFFFFFFA2#32 (s40 []) .r3 = some (0x44#32, 0x01FFFFFF#32) := by decide

/-- VS6, VS7. -/
theorem test_setn :
    pcReg 0xFFFFFD9A#32 (s40 []) .r2 = some (0x44#32, 0xFFFFFFFB#32) ∧
    pcReg 0x0000007A#32 (s40 []) .r8 = some (0x44#32, 0xFE000000#32) := by decide

/-- VU1, VU3, VU4, VU7. -/
theorem test_setu :
    pcReg 0x00000FC3#32 (s40 [(.r1, 5#32)]) .r1 = some (0x44#32, 0x7E000005#32) ∧
    pcReg 0x00000003#32 (s40 [(.r1, 0xFFFFFFFF#32)]) .r1 = some (0x44#32, 0x81FFFFFF#32) ∧
    pcReg 0x00000A8B#32 (s40 [(.r2, 0x01234567#32)]) .r2 = some (0x44#32, 0x55234567#32) ∧
    pcReg 0x00001FC3#32 (s40 [(.r1, 5#32)]) .r1 = some (0x44#32, 0x7E000005#32) := by decide

/-- VA1, VA2, VA3. -/
theorem test_add :
    pcReg 0x00004404#32 (s40 [(.r2, 0xFFFFFFFF#32), (.r3, 2#32)]) .r1 = some (0x44#32, 1#32) ∧
    pcReg 0x00004404#32 (s40 [(.r2, 0x7FFFFFFF#32), (.r3, 1#32)]) .r1 = some (0x44#32, 0x80000000#32) ∧
    pcReg 0x00002484#32 (s40 [(.r2, 0x80000001#32)]) .r2 = some (0x44#32, 2#32) := by decide

/-- VA4, VA5. -/
theorem test_addi :
    pcReg 0x000C8444#32 (s40 [(.r2, 0x7FFFFFFF#32)]) .r1 = some (0x44#32, 0x80000063#32) ∧
    pcReg 0xFFFFFFC4#32 (s40 [(.r8, 1#32)]) .r8 = some (0x44#32, 0x00080000#32) := by decide

/-- VA7, VA9. -/
theorem test_sub :
    pcReg 0x0000440C#32 (s40 [(.r2, 3#32), (.r3, 5#32)]) .r1 = some (0x44#32, 0xFFFFFFFE#32) ∧
    pcReg 0x0000440C#32 (s40 [(.r2, 0x80000000#32), (.r3, 1#32)]) .r1 = some (0x44#32, 0x7FFFFFFF#32) := by decide

/-- VA10, VA11. -/
theorem test_subi :
    pcReg 0x0000244C#32 (s40 [(.r2, 0#32)]) .r1 = some (0x44#32, 0xFFFFFFFF#32) ∧
    pcReg 0x0000244C#32 (s40 [(.r2, 10#32)]) .r1 = some (0x44#32, 9#32) := by decide

/-- VA15, VA16. -/
theorem test_mul :
    pcReg 0x00004414#32 (s40 [(.r2, 0xFFFFFFFF#32), (.r3, 0xFFFFFFFF#32)]) .r1 = some (0x44#32, 1#32) ∧
    pcReg 0x00004414#32 (s40 [(.r2, 0x12345678#32), (.r3, 0x9ABCDEF0#32)]) .r1 =
      some (0x44#32, 0x242D2080#32) := by decide

/-- VA17, VA18. -/
theorem test_muli :
    pcReg 0x00014454#32 (s40 [(.r2, 0x20000000#32)]) .r1 = some (0x44#32, 0x40000000#32) ∧
    pcReg 0x00000454#32 (s40 [(.r2, 0x20000000#32)]) .r1 = some (0x44#32, 0#32) := by decide

/-- VQ2, VQ3, VQ4, VQ7, VQ9, VQ11. -/
theorem test_div :
    pcReg 0x0000441C#32 (s40 [(.r2, 0xFFFFFFF9#32), (.r3, 2#32)]) .r1 = some (0x44#32, 0xFFFFFFFD#32) ∧
    pcReg 0x0000441C#32 (s40 [(.r2, 7#32), (.r3, 0xFFFFFFFE#32)]) .r1 = some (0x44#32, 0xFFFFFFFD#32) ∧
    pcReg 0x0000441C#32 (s40 [(.r2, 0xFFFFFFF9#32), (.r3, 0xFFFFFFFE#32)]) .r1 = some (0x44#32, 3#32) ∧
    pcReg 0x0000441C#32 (s40 [(.r2, 0x80000000#32), (.r3, 0xFFFFFFFF#32)]) .r1 = some (0x44#32, 0x80000000#32) ∧
    pcReg 0x0000441C#32 (s40 [(.r2, 0x80000000#32), (.r3, 2#32)]) .r1 = some (0x44#32, 0xC0000000#32) ∧
    faults 0x0000441C#32 (s40 [(.r2, 7#32), (.r3, 0#32)]) = some (.divideByZero 0x40#32) := by decide

/-- VQ2, VQ3, VQ4, VQ7, VQ9, VQ11. -/
theorem test_mod :
    pcReg 0x00004424#32 (s40 [(.r2, 0xFFFFFFF9#32), (.r3, 2#32)]) .r1 = some (0x44#32, 0xFFFFFFFF#32) ∧
    pcReg 0x00004424#32 (s40 [(.r2, 7#32), (.r3, 0xFFFFFFFE#32)]) .r1 = some (0x44#32, 1#32) ∧
    pcReg 0x00004424#32 (s40 [(.r2, 0xFFFFFFF9#32), (.r3, 0xFFFFFFFE#32)]) .r1 = some (0x44#32, 0xFFFFFFFF#32) ∧
    pcReg 0x00004424#32 (s40 [(.r2, 0x80000000#32), (.r3, 0xFFFFFFFF#32)]) .r1 = some (0x44#32, 0#32) ∧
    pcReg 0x00004424#32 (s40 [(.r2, 0x80000000#32), (.r3, 2#32)]) .r1 = some (0x44#32, 0#32) ∧
    faults 0x00004424#32 (s40 [(.r2, 7#32), (.r3, 0#32)]) = some (.divideByZero 0x40#32) := by decide

/-- VA20, VA21, VA22. -/
theorem test_divi :
    pcReg 0x0000E45C#32 (s40 [(.r2, 0xFFFFFF9C#32)]) .r1 = some (0x44#32, 0xFFFFFFF2#32) ∧
    faults 0x0000045C#32 (s40 [(.r2, 100#32)]) = some (.divideByZero 0x40#32) ∧
    pcReg 0xFFFFE45C#32 (s40 [(.r2, 0x80000000#32)]) .r1 = some (0x44#32, 0xFFFFF000#32) := by decide

/-- VA24, VA26. -/
theorem test_modi :
    pcReg 0x0000E464#32 (s40 [(.r2, 0xFFFFFF9C#32)]) .r1 = some (0x44#32, 0xFFFFFFFE#32) ∧
    faults 0x00000464#32 (s40 [(.r2, 0#32)]) = some (.divideByZero 0x40#32) := by decide

/-- VB1, VB21. -/
theorem test_and :
    pcReg 0x00004405#32 (s40 [(.r2, 0xF0F0F0F0#32), (.r3, 0x0FF00FF0#32)]) .r1 = some (0x44#32, 0x00F000F0#32) ∧
    pcReg 0x00004445#32 (s40 [(.r2, 0xF0F0F0F0#32), (.r3, 0x0FF00FF0#32)]) .r1 =
      some (0x44#32, 0x00F000F0#32) := by decide

/-- VB3, VB4. -/
theorem test_andi :
    pcReg 0x001FE425#32 (s40 [(.r2, 0x12345678#32)]) .r1 = some (0x44#32, 0x78#32) ∧
    pcReg 0xFFFFE425#32 (s40 [(.r2, 0xFFFFFFFF#32)]) .r1 = some (0x44#32, 0x0007FFFF#32) := by decide

/-- VB6, VB7. -/
theorem test_andf :
    pcReg 0xFFE00465#32 (s40 [(.r2, 0x12345678#32)]) .r1 = some (0x44#32, 0x12345600#32) ∧
    pcReg 0x00000465#32 (s40 [(.r2, 0xFFFFFFFF#32)]) .r1 = some (0x44#32, 0xFFF80000#32) := by decide

/-- VB9. -/
theorem test_or :
    pcReg 0x0000440D#32 (s40 [(.r2, 0xF0F0F0F0#32), (.r3, 0x0FF00FF0#32)]) .r1 =
      some (0x44#32, 0xFFF0FFF0#32) := by decide

/-- VB11, VB12. -/
theorem test_ori :
    pcReg 0x0000002D#32 (s40 [(.r1, 0xCAFEF00D#32)]) .r1 = some (0x44#32, 0xCAFEF00D#32) ∧
    pcReg 0xFFFFE42D#32 (s40 [(.r2, 0x12300000#32)]) .r1 = some (0x44#32, 0x1237FFFF#32) := by decide

/-- VB13, VB14. -/
theorem test_orf :
    pcReg 0x0000046D#32 (s40 [(.r2, 0x1234#32)]) .r1 = some (0x44#32, 0xFFF81234#32) ∧
    pcReg 0xFFFFE46D#32 (s40 [(.r2, 0#32)]) .r1 = some (0x44#32, 0xFFFFFFFF#32) := by decide

/-- VB15, VB16. -/
theorem test_xor :
    pcReg 0x00004415#32 (s40 [(.r2, 0xF0F0F0F0#32), (.r3, 0x0FF00FF0#32)]) .r1 = some (0x44#32, 0xFF00FF00#32) ∧
    pcReg 0x00002495#32 (s40 [(.r2, 0x12345678#32)]) .r2 = some (0x44#32, 0#32) := by decide

/-- VB18. -/
theorem test_xori :
    pcReg 0xFFFFE435#32 (s40 [(.r2, 0x12345678#32)]) .r1 = some (0x44#32, 0x1233A987#32) := by decide

/-- VB19, VB20. -/
theorem test_xorf :
    pcReg 0xFFFFE475#32 (s40 [(.r2, 0x12345678#32)]) .r1 = some (0x44#32, 0xEDCBA987#32) ∧
    pcReg 0x00000475#32 (s40 [(.r2, 0x12345678#32)]) .r1 = some (0x44#32, 0xEDCC5678#32) := by decide

/-- VH1, VH5, VH6, VH8. -/
theorem test_bsr :
    pcReg 0x00002206#32 (s40 [(.r2, 0x80000001#32), (.r3, 3#32)]) .r1 = some (0x44#32, 0x10000000#32) ∧
    pcReg 0x00002206#32 (s40 [(.r2, 0x80000001#32), (.r3, 35#32)]) .r1 = some (0x44#32, 0x10000000#32) ∧
    pcReg 0x00002206#32 (s40 [(.r2, 0x80000001#32), (.r3, 32#32)]) .r1 = some (0x44#32, 0x80000001#32) ∧
    pcReg 0x00002206#32 (s40 [(.r2, 0x80000001#32), (.r3, 0xFFFFFFFF#32)]) .r1 = some (0x44#32, 1#32) := by decide

/-- VH10, VH12. -/
theorem test_bsri :
    pcReg 0x00004216#32 (s40 [(.r2, 0x80000001#32)]) .r1 = some (0x44#32, 0x08000000#32) ∧
    pcReg 0x0001F216#32 (s40 [(.r2, 0x80000001#32)]) .r1 = some (0x44#32, 1#32) := by decide

/-- VH2, VH5. -/
theorem test_bsrr :
    pcReg 0x00002226#32 (s40 [(.r2, 0x80000001#32), (.r3, 3#32)]) .r1 = some (0x44#32, 0x30000000#32) ∧
    pcReg 0x00002226#32 (s40 [(.r2, 0x80000001#32), (.r3, 35#32)]) .r1 = some (0x44#32, 0x30000000#32) := by decide

/-- VH14, VH16. -/
theorem test_bsrri :
    pcReg 0x00008236#32 (s40 [(.r2, 0x80000001#32)]) .r1 = some (0x44#32, 0x01800000#32) ∧
    pcReg 0x0001F236#32 (s40 [(.r2, 0x80000001#32)]) .r1 = some (0x44#32, 3#32) := by decide

/-- VH3, VH9, VH24. -/
theorem test_bsl :
    pcReg 0x0000220E#32 (s40 [(.r2, 0x80000001#32), (.r3, 3#32)]) .r1 = some (0x44#32, 8#32) ∧
    pcReg 0x0000220E#32 (s40 [(.r2, 0x80000001#32), (.r3, 0xFFFFFFFF#32)]) .r1 = some (0x44#32, 0x80000000#32) ∧
    pcReg 0x0000124E#32 (s40 [(.r2, 3#32)]) .r2 = some (0x44#32, 0x18#32) := by decide

/-- VH17, VH19. -/
theorem test_bsli :
    pcReg 0x0000421E#32 (s40 [(.r2, 0x80000001#32)]) .r1 = some (0x44#32, 0x10#32) ∧
    pcReg 0x0001F21E#32 (s40 [(.r2, 0x80000001#32)]) .r1 = some (0x44#32, 0x80000000#32) := by decide

/-- VH4, VH6. -/
theorem test_bslr :
    pcReg 0x0000222E#32 (s40 [(.r2, 0x80000001#32), (.r3, 3#32)]) .r1 = some (0x44#32, 0xC#32) ∧
    pcReg 0x0000222E#32 (s40 [(.r2, 0x80000001#32), (.r3, 32#32)]) .r1 = some (0x44#32, 0x80000001#32) := by decide

/-- VH22, VH23. -/
theorem test_bslri :
    pcReg 0x0001023E#32 (s40 [(.r2, 0x12345678#32)]) .r1 = some (0x44#32, 0x56781234#32) ∧
    pcReg 0x0001FFFE#32 (s40 [(.r8, 0x12345678#32)]) .r8 = some (0x44#32, 0x091A2B3C#32) := by decide

/-! The settings of the parameters that are not the default (spec/95_test_vectors.md, the remarks under each table). -/

/-- VQ2, VQ7: `DIVMOD_SIGNED` = false; VQ7 under `DIV_OVERFLOW` = fault. -/
theorem test_unsigned_division :
    quotient { config with divmodSigned := false } 0#32 0xFFFFFFF9#32 2#32 = .ok 0x7FFFFFFC#32 ∧
    remainder { config with divmodSigned := false } 0#32 0x80000000#32 0xFFFFFFFF#32 = .ok 0x80000000#32 ∧
    quotient { config with divOverflow := .fault } 0#32 0x80000000#32 0xFFFFFFFF#32 = .error (.divideOverflow 0#32) := by
  decide

/-- VJ9 and VJ11 under `JMP_IMM_SCALE` = 4 and `JMPC_TAKEN_WHEN_NONZERO` = false; VH5 under `SHIFT_AMOUNT_MODE`. -/
theorem test_other_settings :
    jumpOffset { config with jmpImmScale := 4#32 } 0x1FFFFF#21 = 0x007FFFFC#32 ∧
    jumpTaken { config with jmpcTakenWhenNonzero := false } 1#32 = false ∧
    shiftAmount { config with shiftAmountMode := .zeroResult } 0#32 35#32 = .ok 35 ∧
    shiftAmount { config with shiftAmountMode := .fault } 0#32 35#32 = .error (.shiftAmount 0#32 35#32) ∧
    addressSum { config with addrWrap := .faultOnCarry } 0#32 0xFFFFFFFF#32 1#32 =
      .error (.addressCarry 0#32 0xFFFFFFFF#32 1#32) ∧
    extendOffset { config with immExtend := .sign } 0x7FFFF#19 = 0xFFFFFFFF#32 := by decide

/-! The step: fetch, decode, perform. -/

/-- The bytes of `SET R1 5` at 0x40 (VD17). -/
def setAt40 : State := s40 [] [(0x40, 0x82#8), (0x41, 0x02#8), (0x42, 0#8), (0x43, 0#8)]

/-- VD17: the word is fetched little endian and runs. -/
theorem test_step_set : (nextOf (step setAt40)).map (fun t => (t.pc, t.reg .r1)) = some (0x44#32, 5#32) := by decide

/-- VD13, VD14, VD15. -/
theorem test_step_bad_pc :
    faultOf (step (at_ 2#32 [])) = some (.misalignedFetch 2#32) ∧
    faultOf (step (at_ 0x100000#32 [])) = some (.fetchOutOfRange 0x100000#32) ∧
    faultOf (step (at_ 0x100002#32 [])) = some (.misalignedFetch 0x100002#32) := by decide

/-- VD3, run: the fault carries the pc and the word. -/
theorem test_step_illegal :
    faultOf (step (State.reset.withFetchWord 32 7)) = some (.illegalInstruction 0#32 7#32) := by decide

/-- The word the host places is the one the first step after reset runs; bits above `nbits` are zero. -/
theorem test_withFetchWord :
    (nextOf (step (State.reset.withFetchWord 32 0xFFFFFFA2))).map (fun t => (t.pc, t.reg .r3)) =
      some (4#32, 0x01FFFFFF#32) ∧
    (nextOf (step (State.reset.withFetchWord 8 0xFFFFFF82))).map (fun t => t.reg .r1) = some 1#32 := by decide

/-! The canonical form of RAM. -/

theorem test_memory_canonical :
    Memory.write (Memory.write [] 9 1#8) 3 2#8 = [(3, 2#8), (9, 1#8)] ∧ Memory.write [(3, 2#8)] 3 7#8 = [(3, 7#8)] ∧
    Memory.wf [(9, 1#8), (3, 2#8)] = false ∧ Memory.wf [(3, 2#8), (3, 2#8)] = false ∧
    Memory.inRam [(0x100000, 0#8)] = false := by decide

/-! Witnesses: for each statement with hypotheses, values that meet them all, with the boundaries of each clause. -/

/-- The four bytes of a word from an address up. -/
def wordAt (a : Nat) (w : Word) : List Host.Cell := imageOfWords a [w]

theorem witness_DecodeOfEncode :
    config.regMapOk = true ∧ Config.regMapOk { config with strictDontCare := true } = true := by decide

theorem witness_EncodeOfDecode :
    config.regMapOk = true ∧ decodeWord config 0xFFFF4404#32 = .ok (.add .r1 .r2 .r3) ∧
    encode config (.add .r1 .r2 .r3) = 0x00004404#32 := by decide

theorem witness_IgnoredBits :
    decodeWord config 0x00004404#32 = .ok (.add .r1 .r2 .r3) ∧
    (0x00004404#32 ^^^ 0xFFFF4404#32) &&& ~~~(opcodeRow .add).ignored = 0#32 := by decide

theorem witness_StrictDecoder :
    decodeWord config 0x00004404#32 = .ok (.add .r1 .r2 .r3) ∧
    decodeWord config 0xFFFF4404#32 = .ok (.add .r1 .r2 .r3) := by
  decide

/-- At an inner word and at the last word of RAM (VD16). -/
theorem witness_StepRuns :
    (setAt40.pc.toNat % 4 = 0 ∧ setAt40.pc.toNat ≤ 0x000FFFFC ∧ Memory.read setAt40.mem 0x40 = some 0x82#8 ∧
      Memory.read setAt40.mem 0x41 = some 0x02#8 ∧ Memory.read setAt40.mem 0x42 = some 0#8 ∧
      Memory.read setAt40.mem 0x43 = some 0#8 ∧
      decodeWord config (0#8 ++ 0#8 ++ 0x02#8 ++ 0x82#8 : BitVec 32) = .ok (.set .r1 5#25)) ∧
    (nextOf (step (at_ 0xFFFFC#32 [] (wordAt 0xFFFFC 0x282#32)))).map State.pc = some 0x100000#32 := by decide

/-- Misaligned inside and outside RAM; aligned, just outside RAM and at the top of the address space. -/
theorem witness_FetchChecks :
    (at_ 2#32 []).pc.toNat % 4 ≠ 0 ∧ (at_ 0x100002#32 []).pc.toNat % 4 ≠ 0 ∧
    ((at_ 0x100000#32 []).pc.toNat % 4 = 0 ∧ 0x000FFFFC < (at_ 0x100000#32 []).pc.toNat) ∧
    ((at_ 0xFFFFFFFC#32 []).pc.toNat % 4 = 0 ∧ 0x000FFFFC < (at_ 0xFFFFFFFC#32 []).pc.toNat) := by decide

/-- A fetch whose last byte holds no value, at the last word of RAM; loads of each width at their last address. -/
theorem witness_UnwrittenBytes :
    (let s := at_ 0xFFFFC#32 [] [(0xFFFFC, 0#8), (0xFFFFD, 0#8), (0xFFFFE, 0#8)]
     s.pc.toNat % 4 = 0 ∧ s.pc.toNat ≤ 0x000FFFFC ∧ Memory.read s.mem (s.pc.toNat + 3) = none) ∧
    ((0xFFFFF#32 : Word).toNat % Width.byte.bytes = 0 ∧ Memory.read (s40 []).mem (0xFFFFF + 0) = none) ∧
    ((0xFFFFE#32 : Word).toNat % Width.half.bytes = 0 ∧
    Memory.read (s40 [] [(0xFFFFE, 1#8)]).mem (0xFFFFE + 1) = none) ∧
    ((0xFFFFC#32 : Word).toNat % Width.word.bytes = 0 ∧ Memory.read (s40 []).mem (0xFFFFC + 3) = none) := by decide

/-- One word for each of the four ways to be no instruction, at the lowest and the highest code. -/
theorem witness_IllegalWord :
    fetchWord (s40 [] (wordAt 0x40 7#32)) = .ok 7#32 ∧ (7#32 : Word).extractLsb' 0 3 = 7#3 ∧
    fetchWord (s40 [] (wordAt 0x40 0x31#32)) = .ok 0x31#32 ∧
    ((0x31#32 : Word).extractLsb' 0 3 = 1#3 ∧ (0x31#32 : Word).extractLsb' 4 2 = 3#2) ∧
    fetchWord (s40 [] (wordAt 0x40 0x2C#32)) = .ok 0x2C#32 ∧
    ((0x2C#32 : Word).extractLsb' 0 3 = 4#3 ∧ 5 ≤ ((0x2C#32 : Word).extractLsb' 3 3).toNat) ∧
    ((0x3C#32 : Word).extractLsb' 0 3 = 4#3 ∧ 5 ≤ ((0x3C#32 : Word).extractLsb' 3 3).toNat) ∧
    fetchWord (s40 [] (wordAt 0x40 0x1D#32)) = .ok 0x1D#32 ∧
    ((0x1D#32 : Word).extractLsb' 0 3 = 5#3 ∧ (0x1D#32 : Word).extractLsb' 3 2 = 3#2) := by decide

/-- A step that raises each kind of fault: with `eq_fault`, the statement's hypothesis. -/
theorem witness_EveryFault :
    faultOf (step (at_ 1#32 [])) = some (.misalignedFetch 1#32) ∧
    faultOf (step (at_ 0x100000#32 [])) = some (.fetchOutOfRange 0x100000#32) ∧
    faultOf (step (s40 [])) = some (.unwrittenFetch 0x40#32) ∧
    faultOf (step (s40 [] (wordAt 0x40 7#32))) = some (.illegalInstruction 0x40#32 7#32) ∧
    faultOf (step (s40 [(.r2, 1#32)] (wordAt 0x40 0x461#32))) =
      some (.misalignedAccess 0x40#32 1#32 .word .store) ∧
    faultOf (step (s40 [(.r2, 0x100000#32)] (wordAt 0x40 0x5E9#32))) =
      some (.accessOutOfRange 0x40#32 0x100000#32 .word .load) ∧
    faultOf (step (s40 [] (wordAt 0x40 0x5E9#32))) = some (.unwrittenRead 0x40#32 0#32 .word) ∧
    faultOf (step (s40 [] (wordAt 0x40 0x45C#32))) = some (.divideByZero 0x40#32) := by decide

theorem witness_EveryFault_hypothesis : step (at_ 1#32 []) = .fault (.misalignedFetch 1#32) := eq_fault (by decide)

/-- What a run's end shows: the pc it stands at, and whether it halted, faulted or was still running. -/
def endOf : RunEnd → Word × String
  | .halted u => (u.pc, "halted")
  | .faulted u _ => (u.pc, "faulted")
  | .refused u _ => (u.pc, "refused")
  | .running u => (u.pc, "running")

/-- A run that faults in its second step; one that halts after its first; one that halts after none, in the start state;
one whose single step is used up. -/
theorem witness_RunsEnd :
    endOf (runUntil (fun _ => false) 2 setAt40) = (0x44#32, "faulted") ∧
    endOf (runUntil (fun s => s.pc == 0x44#32) 2 setAt40) = (0x44#32, "halted") ∧
    endOf (runUntil (fun _ => true) 2 setAt40) = (0x40#32, "halted") ∧
    endOf (runUntil (fun _ => false) 1 setAt40) = (0x44#32, "running") := by decide

theorem witness_StepKeepsInvariant :
    (Memory.wf setAt40.mem = true ∧ Memory.inRam setAt40.mem = true) ∧ ∃ t, step setAt40 = .next t :=
  ⟨by decide, exists_next (by decide)⟩

/-- An image that gives one address twice, and the last byte of RAM. -/
theorem witness_Boot :
    imageOk [(5, 1#8), (0xFFFFF, 9#8), (5, 2#8)] = true ∧
    Memory.read (State.boot 0#32 Regs.reset [(5, 1#8), (0xFFFFF, 9#8), (5, 2#8)]).mem 5 = some 2#8 ∧
    Memory.read (State.boot 0#32 Regs.reset [(5, 1#8), (0xFFFFF, 9#8), (5, 2#8)]).mem 0xFFFFF = some 9#8 := by decide

theorem witness_WrittenBytes :
    (∃ t, step setAt40 = .next t) ∧ (Memory.read setAt40.mem 0x43).isSome = true := ⟨exists_next (by decide), by decide⟩

/-- R1 = 0xFFFFF, R2 = 0xFFFFE, R3 = 0xFFFFC, R4 = 0, every byte of the last word written. -/
def atEnd : State :=
  s40 [(.r1, 0xFFFFF#32), (.r2, 0xFFFFE#32), (.r3, 0xFFFFC#32)] (wordAt 0xFFFFC 0x44332211#32)

/-- Stores and loads of each width that complete at their last address; the statements on alignment, frames, stored
bytes, the pc and read-back all rest on such steps. -/
theorem witness_accesses_complete :
    (∃ t, exec (.stb .r1 .r1 .r4) atEnd = .next t) ∧ (∃ t, exec (.sth .r1 .r2 .r4) atEnd = .next t) ∧
    (∃ t, exec (.stw .r1 .r3 .r4) atEnd = .next t) ∧ (∃ t, exec (.stbi .r1 .r1 0#19) atEnd = .next t) ∧
    (∃ t, exec (.sthi .r1 .r2 0#19) atEnd = .next t) ∧ (∃ t, exec (.stwi .r1 .r3 0#19) atEnd = .next t) ∧
    (∃ t, exec (.ldb .r5 .r1 .r4) atEnd = .next t) ∧ (∃ t, exec (.ldh .r5 .r2 .r4) atEnd = .next t) ∧
    (∃ t, exec (.ldw .r5 .r3 .r4) atEnd = .next t) ∧ (∃ t, exec (.ldbi .r5 .r1 0#19) atEnd = .next t) ∧
    (∃ t, exec (.ldhi .r5 .r2 0#19) atEnd = .next t) ∧ (∃ t, exec (.ldwi .r5 .r3 0#19) atEnd = .next t) :=
  ⟨exists_next (by decide), exists_next (by decide), exists_next (by decide), exists_next (by decide),
    exists_next (by decide), exists_next (by decide), exists_next (by decide), exists_next (by decide),
    exists_next (by decide), exists_next (by decide), exists_next (by decide), exists_next (by decide)⟩

theorem witness_OnlyAligned :
    (∃ t, step setAt40 = .next t) ∧ (∃ t, exec (.stw .r1 .r3 .r4) atEnd = .next t) ∧
    accessOf (.stw .r1 .r3 .r4) atEnd = some (.store, .word, 0xFFFFC#32) :=
  ⟨exists_next (by decide), exists_next (by decide), by decide⟩

theorem witness_OnlyJumps :
    isJump (.set .r1 5#25) = false ∧ ∃ t, exec (.set .r1 5#25) setAt40 = .next t := ⟨by decide, exists_next (by decide)⟩

theorem witness_OnlyDestination :
    (∃ t, exec (.set .r1 5#25) setAt40 = .next t) ∧ destOf (.set .r1 5#25) ≠ some .r2 ∧
    (∃ t, exec (.stw .r1 .r3 .r4) atEnd = .next t) ∧ destOf (.stw .r1 .r3 .r4) ≠ some .r1 :=
  ⟨exists_next (by decide), by decide, exists_next (by decide), by decide⟩

/-- The bytes next to a stored half-word, on both sides. -/
theorem witness_OnlyStoredBytes :
    (∃ t, exec (.sth .r1 .r2 .r4) (s40 [(.r2, 0x102#32)]) = .next t) ∧
    accessOf (.sth .r1 .r2 .r4) (s40 [(.r2, 0x102#32)]) = some (.store, .half, 0x102#32) ∧
    (0x101 < (0x102#32 : Word).toNat) ∧ (0x102#32 : Word).toNat + Width.half.bytes ≤ 0x104 :=
  ⟨exists_next (by decide), by decide, by decide, by decide⟩

/-- A jump taken, a jump not taken, and an instruction that is no jump. -/
theorem witness_NoInstructionReadsThePc :
    (∃ t, exec (.jmp .r1 .r2) (s40 []) = .next t) ∧ (∃ t, exec (.jmpc .r1 .r2 .r3) (s40 []) = .next t) ∧
    ∃ t, exec (.ldb .r5 .r1 .r4) atEnd = .next t :=
  ⟨exists_next (by decide), exists_next (by decide), exists_next (by decide)⟩

/-- VJ4, VJ5, the highest aligned address, VJ10's misaligned immediate target, and JMPC and JMPIC when taken. -/
theorem witness_BadJumpTarget :
    (jumpTargetOf (.jmp .r3 .r4) (s40 [(.r3, 0x101#32)]) = some 0x101#32 ∧ (0x101#32 : Word).toNat % 4 ≠ 0) ∧
    (jumpTargetOf (.jmp .r3 .r4) (s40 [(.r3, 0x100000#32)]) = some 0x100000#32 ∧
      (0x100000#32 : Word).toNat % 4 = 0 ∧ 0x000FFFFC < (0x100000#32 : Word).toNat) ∧
    (jumpTargetOf (.jmp .r3 .r4) (s40 [(.r3, 0xFFFFFFFC#32)]) = some 0xFFFFFFFC#32 ∧
      (0xFFFFFFFC#32 : Word).toNat % 4 = 0) ∧
    jumpTargetOf (.jmpi .r8 0x1FFFFF#21) (s40 []) = some 0x1FFFFF#32 ∧
    jumpTargetOf (.jmpc .r2 .r3 .r4) (s40 [(.r2, 0x101#32), (.r4, 1#32)]) = some 0x101#32 ∧
    jumpTargetOf (.jmpic .r1 0x100000#21 .r4) (s40 [(.r4, 1#32)]) = some 0x100000#32 := by decide

/-- At the last word of RAM: an instruction that is no jump, and VJ18's JMPIC that is not taken. -/
theorem witness_RunningOff :
    (at_ 0xFFFFC#32 []).pc = 0x000FFFFC#32 ∧
    (jumpTargetOf (.set .r1 5#25) (at_ 0xFFFFC#32 []) = none ∧
      ∃ t, exec (.set .r1 5#25) (at_ 0xFFFFC#32 []) = .next t) ∧
    (jumpTargetOf (.jmpic .r1 0#21 .r1) (at_ 0xFFFFC#32 []) = none ∧
      ∃ t, exec (.jmpic .r1 0#21 .r1) (at_ 0xFFFFC#32 []) = .next t) :=
  ⟨by decide, ⟨by decide, exists_next (by decide)⟩, ⟨by decide, exists_next (by decide)⟩⟩

/-- The clauses of `StoreAnswers` and `LoadAnswers` for each width: a misaligned address inside RAM and one outside (the
alignment clause), the first address outside RAM and the last aligned one of all (the range clause), the first and the
last address of RAM (the completing clause). A byte access is aligned everywhere. -/
theorem witness_access_clauses :
    ((1#32 : Word).toNat % Width.half.bytes ≠ 0 ∧ (0x100001#32 : Word).toNat % Width.half.bytes ≠ 0 ∧
      (2#32 : Word).toNat % Width.word.bytes ≠ 0 ∧ (0x100002#32 : Word).toNat % Width.word.bytes ≠ 0) ∧
    (∀ w : Width, w ∈ [Width.byte, .half, .word] → (0x100000#32 : Word).toNat % w.bytes = 0 ∧
      0x000FFFFF < (0x100000#32 : Word).toNat) ∧
    ((0xFFFFFFFF#32 : Word).toNat % Width.byte.bytes = 0 ∧ (0xFFFFFFFE#32 : Word).toNat % Width.half.bytes = 0 ∧
      (0xFFFFFFFC#32 : Word).toNat % Width.word.bytes = 0) ∧
    ((0xFFFFF#32 : Word).toNat % Width.byte.bytes = 0 ∧ (0xFFFFE#32 : Word).toNat % Width.half.bytes = 0 ∧
      (0xFFFFC#32 : Word).toNat % Width.word.bytes = 0 ∧ (0#32 : Word).toNat % Width.word.bytes = 0) := by decide

/-- The faults of a register store at its clauses' boundaries, and of a register load. -/
theorem witness_access_faults :
    faultOf (exec (.sth .r1 .r2 .r4) (s40 [(.r2, 0x100001#32)])) =
      some (.misalignedAccess 0x40#32 0x100001#32 .half .store) ∧
    faultOf (exec (.stb .r1 .r2 .r4) (s40 [(.r2, 0xFFFFFFFF#32)])) =
      some (.accessOutOfRange 0x40#32 0xFFFFFFFF#32 .byte .store) ∧
    faultOf (exec (.ldw .r1 .r2 .r4) (s40 [(.r2, 2#32)])) = some (.misalignedAccess 0x40#32 2#32 .word .load) ∧
    faultOf (exec (.ldb .r1 .r2 .r4) (s40 [(.r2, 0x100000#32)])) =
      some (.accessOutOfRange 0x40#32 0x100000#32 .byte .load) := by decide

/-- Bytes that hold a word, a half-word and a byte at the last addresses of RAM (the loads' hypothesis). -/
theorem witness_HoldsBytes :
    (∀ k, k < 4 → Memory.read atEnd.mem ((0xFFFFC#32 : Word).toNat + k) =
      some ((0x44332211#32 : Word).extractLsb' (8 * k) 8)) ∧
    (∀ k, k < 2 → Memory.read atEnd.mem ((0xFFFFE#32 : Word).toNat + k) =
      some ((0x4433#32 : Word).extractLsb' (8 * k) 8)) ∧
    (∀ k, k < 1 → Memory.read atEnd.mem ((0xFFFFF#32 : Word).toNat + k) =
      some ((0x44#32 : Word).extractLsb' (8 * k) 8)) ∧
    (0x44332211#32 : Word).toNat < 2 ^ (8 * 4) ∧ (0x4433#32 : Word).toNat < 2 ^ (8 * 2) ∧
    (0x44#32 : Word).toNat < 2 ^ (8 * 1) := by
  decide

theorem witness_LoadsZeroFill :
    (∃ t, exec (.ldh .r5 .r2 .r4) atEnd = .next t) ∧
    accessOf (.ldh .r5 .r2 .r4) atEnd = some (.load, .half, 0xFFFFE#32) := ⟨exists_next (by decide), by decide⟩

/-- The state after `STHI R1 R2 0` at the last half-word of RAM. -/
def afterSthi : State := (nextOf (exec (.sthi .r1 .r2 0#19) atEnd)).getD atEnd

/-- An immediate store, then a register load of its address through other registers. -/
theorem witness_StoreThenLoad :
    exec (.sthi .r1 .r2 0#19) atEnd = .next afterSthi ∧
    accessOf (.sthi .r1 .r2 0#19) atEnd = some (.store, .half, 0xFFFFE#32) ∧ storedOf (.sthi .r1 .r2 0#19) = some .r1 ∧
    accessOf (.ldh .r5 .r4 .r2) afterSthi = some (.load, .half, 0xFFFFE#32) ∧
    destOf (.ldh .r5 .r4 .r2) = some .r5 :=
  ⟨rfl, by decide, by decide, by decide, by decide⟩

theorem witness_MixedWidth : (memWrite (s40 []) 0xFFFFC#32 .word 0x11223344#32).toBool = true := by decide

theorem witness_StoreIsSeen :
    (∃ t, exec (.stw .r1 .r3 .r4) (s40 [(.r3, 0x44#32)]) = .next t) ∧
    (s40 [(.r3, 0x44#32)]).reg .r3 + (s40 [(.r3, 0x44#32)]).reg .r4 = (s40 [(.r3, 0x44#32)]).pc + 4#32 :=
  ⟨exists_next (by decide), by decide⟩

/-- Divisors that are not zero, the overflowing pair among them; the smallest and the largest immediate; a zero one. -/
theorem witness_divisors :
    (s40 [(.r2, 0x80000000#32), (.r3, 0xFFFFFFFF#32)]).reg .r3 ≠ 0#32 ∧ (s40 [(.r3, 1#32)]).reg .r3 ≠ 0#32 ∧
    (1#19 : BitVec 19) ≠ 0#19 ∧ (0x7FFFF#19 : BitVec 19) ≠ 0#19 ∧ (s40 []).reg .r3 = 0#32 := by decide

theorem witness_SignedUnsigned :
    (1#32 : Word) ≠ 0#32 ∧ (0x7FFFFFFF#32 : Word).toNat < 2 ^ 31 ∧ (1#32 : Word).toNat < 2 ^ 31 := by decide

theorem witness_Rebuild :
    (∃ t, exec (.div .r4 .r2 .r3) (s40 [(.r2, 0x80000000#32), (.r3, 0xFFFFFFFF#32)]) = .next t) ∧
    ∃ u, exec (.mod .r5 .r2 .r3) (s40 [(.r2, 0x80000000#32), (.r3, 0xFFFFFFFF#32)]) = .next u :=
  ⟨exists_next (by decide), exists_next (by decide)⟩

theorem witness_ShiftOperations : 0 ≤ 31 ∧ 31 ≤ 31 := by decide

theorem witness_RotatesUndo :
    (∃ t, exec (.bsrri .r1 .r2 31#5) (s40 [(.r2, 0x80000001#32)]) = .next t) ∧
    ∃ u, exec (.bslri .r1 .r1 31#5) (s40 [(.r1, 3#32)]) = .next u := ⟨exists_next (by decide), exists_next (by decide)⟩

/-- The spin in place: a register that holds 0 and a target that is the pc. -/
theorem witness_Idioms : (s40 []).reg .r1 = 0#32 ∧ (s40 []).pc = (0x40#21 : BitVec 21).zeroExtend 32 := by decide

/-- The control register of a conditional jump zero and not zero. -/
theorem witness_ConditionalJump : (s40 []).reg .r4 = 0#32 ∧ (s40 [(.r4, 1#32)]).reg .r4 ≠ 0#32 := by decide


end Sys2Proof.Tests
end

/-! PROOFS. Alignment (spec/20_memory.md R25): why an instruction faults, said once for all 46, and what a misaligned
access answers; from these, that only aligned accesses and fetches are performed. -/

namespace Sys2Proof.Machine

/-! The operands of an access. -/

/-- An instruction whose access is a store stores a register. -/
theorem storedOf_of_store {i : Instr} {s : State} {w : Width} {ea : Word}
    (ha : accessOf i s = some (.store, w, ea)) : ∃ src, storedOf i = some src := by
  cases i with
  | stb src _ _ | sth src _ _ | stw src _ _ | stbi src _ _ | sthi src _ _ | stwi src _ _ => exact ⟨src, rfl⟩
  | _ => simp [accessOf] at ha

/-- An instruction whose access is a load writes a register. -/
theorem destOf_of_load {i : Instr} {s : State} {w : Width} {ea : Word}
    (ha : accessOf i s = some (.load, w, ea)) : ∃ dest, destOf i = some dest := by
  cases i with
  | ldb dest _ _ | ldh dest _ _ | ldw dest _ _ | ldbi dest _ _ | ldhi dest _ _ | ldwi dest _ _ => exact ⟨dest, rfl⟩
  | _ => simp [accessOf] at ha

/-! Why an instruction faults. -/

/-- The reasons for which an instruction, once fetched and decoded, faults: a zero divisor, or an access that is
misaligned, out of range, or a load of a byte that holds no value. -/
def FaultedAs (i : Instr) (s : State) (f : Fault) : Prop :=
  (f = .divideByZero s.pc ∧ divisorOf i s = some 0#32) ∨
  ∃ kind w ea, accessOf i s = some (kind, w, ea) ∧
    ((f = .misalignedAccess s.pc ea w kind ∧ ea.toNat % w.bytes ≠ 0) ∨
      (f = .accessOutOfRange s.pc ea w kind ∧ ea.toNat % w.bytes = 0 ∧ 0x000FFFFF < ea.toNat) ∨
      (f = .unwrittenRead s.pc ea w ∧ kind = .load ∧ ∃ k, k < w.bytes ∧ Memory.read s.mem (ea.toNat + k) = none))

theorem faulted_store {i : Instr} {s : State} {f : Fault} {w : Width} {v b o : Word}
    (h : store config w v b o s = .fault f) (ha : accessOf i s = some (.store, w, b + o)) : FaultedAs i s f :=
  .inr ⟨.store, w, b + o, ha, (store_fault h).imp_right .inl⟩

theorem faulted_load {i : Instr} {s : State} {f : Fault} {w : Width} {d : Reg} {b o : Word}
    (h : load config w d b o s = .fault f) (ha : accessOf i s = some (.load, w, b + o)) : FaultedAs i s f :=
  .inr ⟨.load, w, b + o, ha,
    (load_fault h).imp_right (.imp_right fun ⟨e, hk⟩ => ⟨e, rfl, hk⟩)⟩

/-- A division faults only where its value does, and the value only for a zero divisor: `y` is `quotient` or
`remainder`, in the form `quotient_config` and `remainder_config` give it. -/
theorem faulted_division {i : Instr} {s : State} {f : Fault} {y : Except Fault Word} {d : Reg} {b q : Word}
    (h : (orRaise y fun v => writeBack config d v s) = .fault f)
    (hy : y = if b = 0#32 then .error (.divideByZero s.pc) else .ok q) (hd : divisorOf i s = some b) :
    FaultedAs i s f := by
  subst hy
  by_cases hb : b = 0#32
  · rw [if_pos hb, orRaise_error, Host.Outcome.fault.injEq] at h
    exact .inl ⟨h.symm, hb ▸ hd⟩
  · simp [if_neg hb, writeBack] at h

/-- Every instruction that faults does so for one of these reasons. -/
theorem exec_fault {i : Instr} {s : State} {f : Fault} (h : exec i s = .fault f) : FaultedAs i s f := by
  cases i with
  | jmpc b o c => exact nomatch (jumpIf_config _ _ _ s).symm.trans h
  | jmpic b o c => exact nomatch (jumpIf_config _ _ _ s).symm.trans h
  | stb a b o | sth a b o | stw a b o | stbi a b o | sthi a b o | stwi a b o => exact faulted_store h rfl
  | ldb d b o | ldh d b o | ldw d b o | ldbi d b o | ldhi d b o | ldwi d b o => exact faulted_load h rfl
  | div d a b | divi d a b => exact faulted_division h (quotient_config _ _ _) rfl
  | mod d a b | modi d a b => exact faulted_division h (remainder_config _ _ _) rfl
  | _ => exact nomatch h

/-! What alignment decides. -/

/-- A misaligned load or store faults. -/
theorem exec_misaligned {i : Instr} {s : State} {kind : AccessKind} {w : Width} {ea : Word}
    (ha : accessOf i s = some (kind, w, ea)) (hm : ea.toNat % w.bytes ≠ 0) :
    exec i s = .fault (.misalignedAccess s.pc ea w kind) := by
  cases kind with
  | store =>
    obtain ⟨src, hs⟩ := storedOf_of_store ha
    exact (exec_store_answers ha hs).1 hm
  | load =>
    obtain ⟨dest, hd⟩ := destOf_of_load ha
    exact (exec_load_answers ha hd).1 hm

/-- The address an instruction reports as misaligned is misaligned. -/
theorem misaligned_of_exec_fault {i : Instr} {s : State} {pc ea : Word} {w : Width} {kind : AccessKind}
    (h : exec i s = .fault (.misalignedAccess pc ea w kind)) : ea.toNat % w.bytes ≠ 0 := by
  rcases exec_fault h with ⟨e, _⟩ | ⟨_, _, _, _, ⟨e, hm⟩ | ⟨e, _⟩ | ⟨e, _⟩⟩
  · nomatch e
  · cases e
    exact hm
  · nomatch e
  · nomatch e

/-- A step that completes has fetched its instruction. -/
theorem fetchWord_of_step_next {s t : State} (h : step s = .next t) : ∃ insn, fetchWord s = .ok insn := by
  rcases step_cases s with ⟨f, _, e⟩ | ⟨_, _, _, _, e⟩ | ⟨insn, _, hf, _, _⟩
  · exact nomatch e.symm.trans h
  · exact nomatch e.symm.trans h
  · exact ⟨insn, hf⟩

/-- Settles O21: a fetch succeeds only at a multiple of 4, a misaligned access faults, and no address is misaligned for
a byte. -/
theorem onlyAlignedAccessesComplete : Obligations.OnlyAlignedAccessesComplete := by
  refine ⟨fun s t h => ?_, fun i s t kind w ea h ha => ?_, fun i s pc ea kind h => ?_⟩
  · obtain ⟨insn, hf⟩ := fetchWord_of_step_next h
    exact (fetchWord_ok.1 hf).1
  · by_contra hm
    exact nomatch (exec_misaligned ha hm).symm.trans h
  · exact misaligned_of_exec_fault h (Nat.mod_one _)

end Sys2Proof.Machine

/-! PROOFS. Loads (spec/41_st_ld.md R73): a load instruction is `MemRead` followed by the write of its destination, and
what `MemRead` reads has zeros above its bytes. -/

namespace Sys2Proof.Machine

/-- What `MemRead` reads of `n` bytes is a number of `n` bytes: the bits above them are zero. -/
theorem memRead_lt {s : State} {ea : Word} {w : Width} {v : Word} (h : memRead s ea w = .ok v) :
    v.toNat < 2 ^ (8 * w.bytes) := by
  rcases memRead_cases s ea w with ⟨_, e⟩ | ⟨_, _, e⟩ | ⟨_, _, _, e⟩ | ⟨_, _, u, hu, e⟩
  · exact nomatch e.symm.trans h
  · exact nomatch e.symm.trans h
  · exact nomatch e.symm.trans h
  · obtain rfl : u = v := Except.ok.inj (e.symm.trans h)
    exact (bytes_of_readLE (bytes_le w) hu).2

/-- A load instruction reads at its access and writes what it read to its destination. -/
theorem exec_of_load {i : Instr} {s : State} {w : Width} {ea : Word} {dest : Reg}
    (ha : accessOf i s = some (.load, w, ea)) (hd : destOf i = some dest) :
    exec i s = orRaise (memRead s ea w) fun v => writeBack config dest v s := by
  cases i with
  | ldb d b o | ldh d b o | ldw d b o | ldbi d b o | ldhi d b o | ldwi d b o =>
    cases ha
    cases hd
    exact load_config _ _ _ _ s
  | _ => simp [accessOf] at ha

/-- A computed register's instruction leaves the value in its destination. -/
theorem reg_of_writeBack_next {dest : Reg} {v : Word} {s t : State} (h : writeBack config dest v s = .next t) :
    t.reg dest = v := by
  obtain ⟨u, hu, hv, _⟩ := writeBack_writes dest v s
  obtain rfl : u = t := Host.Outcome.next.inj (hu.symm.trans h)
  exact hv

/-- Settles O34: a load that completes has read a value, the value has zeros above its bytes, and the destination holds
it. -/
theorem loadsZeroFillAboveTheBytesRead : Obligations.LoadsZeroFillAboveTheBytesRead := by
  intro i s t w ea h ha
  obtain ⟨dest, hd⟩ := destOf_of_load ha
  rw [exec_of_load ha hd] at h
  obtain ⟨v, hv, hw⟩ := orRaise_next.1 h
  exact ⟨dest, v, hd, hv, memRead_lt hv, reg_of_writeBack_next hw⟩

end Sys2Proof.Machine

/-! PROOFS. SET and SETN (spec/42_set.md R90 to R92): the words of format S, what the two instructions write, and which
integers these values are. -/

namespace Sys2Proof.Machine

/-! The words of format S. -/

/-- `STRICT_DONT_CARE` is false: what the formats decode is the instruction (R55). -/
theorem decodeWord_of_decodeAny {w : Word} {i : Instr} (h : decodeAny config w = .ok i) :
    decodeWord config w = .ok i := by
  rw [decodeWord, h]
  rfl

/-- A word whose op code is 010 is an instruction of format S (spec/30_encoding.md R45, R48). -/
theorem decodeWord_formatS {w : Word} (h : field w 0 3 = 0b010#3) : decodeWord config w = .ok (decodeS config w) :=
  decodeWord_of_decodeAny (by simp [decodeAny, h])

/-- A word laid out by format S is SETN or SET as N = `insn[3]`, bit 3 of its low bits, is one or zero (R48). -/
theorem decodeWord_wordS (val : BitVec 25) (dest : BitVec 3) {low : BitVec 4} (h : low.extractLsb' 0 3 = 0b010#3) :
    decodeWord config (wordS val dest low) =
      .ok (if low.getLsbD 3 then .setn (gpr dest) val else .set (gpr dest) val) := by
  have hN : bit (wordS val dest low) 3 = low.getLsbD 3 := bit_wordS val dest low (by decide)
  rw [decodeWord_formatS ((field_wordS_op val dest low).trans h), decodeS, hN]
  simp only [regField, field_wordS_4, field_wordS_7, gpr]
  cases low.getLsbD 3 with
  | false => rfl
  | true => rfl

/-! The values written, as bits 31..25 above the value field. -/

theorem setValue_eq_append (val : BitVec 25) : setValue val = (0b0000000#7 ++ val : BitVec 32) :=
  BitVec.setWidth_eq_append (by decide)

/-- The constant SETN puts over the value is seven ones above 25 zeros. -/
theorem setnValue_eq_append (val : BitVec 25) : setnValue val = (0b1111111#7 ++ val : BitVec 32) := by
  have hones : (0xFE000000#32 : Word) = 0b1111111#7 ++ 0#25 := rfl
  have hval : val.zeroExtend 32 = 0b0000000#7 ++ val := setValue_eq_append val
  rw [setnValue, hones, hval, BitVec.or_append, BitVec.or_zero, BitVec.zero_or]

/-- SET writes its value to the destination and nothing else. -/
theorem exec_set_writes (dest : Reg) (val : BitVec 25) (s : State) :
    WritesRegister (exec (.set dest val) s) s dest (setValue val) :=
  writeBack_writes dest (setValue val) s

/-- SETN writes its value to the destination and nothing else. -/
theorem exec_setn_writes (dest : Reg) (val : BitVec 25) (s : State) :
    WritesRegister (exec (.setn dest val) s) s dest (setnValue val) :=
  writeBack_writes dest (setnValue val) s

/-! The values written, read signed. -/

/-- Bits 31..25 zero, as SET writes them: the value field itself. -/
theorem toInt_zeros_append (val : BitVec 25) : (0b0000000#7 ++ val : BitVec 32).toInt = val.toNat := by
  have hzeros : (0b0000000#7).toInt = 0 := rfl
  rw [BitVec.toInt_append, hzeros, if_neg (by decide)]
  omega

/-- Bits 31..25 one, as SETN writes them, read signed as −1: the value field less 2^25. -/
theorem toInt_ones_append (val : BitVec 25) : (0b1111111#7 ++ val : BitVec 32).toInt = val.toNat - 2 ^ 25 := by
  have hones : (0b1111111#7).toInt = -1 := rfl
  rw [BitVec.toInt_append, hones, if_neg (by decide)]
  omega

/-- The numbers SET writes are 0 .. 2^25 − 1, those SETN writes −2^25 .. −1; together −2^25 .. 2^25 − 1 (R90). -/
theorem set_range_iff (v : Int) : (-2 ^ 25 ≤ v ∧ v < 2 ^ 25) ↔
    ∃ val : BitVec 25, (0b0000000#7 ++ val : BitVec 32).toInt = v ∨ (0b1111111#7 ++ val : BitVec 32).toInt = v := by
  simp only [toInt_zeros_append, toInt_ones_append]
  constructor
  · rintro ⟨hlo, hhi⟩
    rcases le_or_gt 0 v with hv | hv
    · refine ⟨BitVec.ofNat 25 v.toNat, .inl ?_⟩
      rw [BitVec.toNat_ofNat]
      omega
    · refine ⟨BitVec.ofNat 25 (v + 2 ^ 25).toNat, .inr ?_⟩
      rw [BitVec.toNat_ofNat]
      omega
  · rintro ⟨val, rfl | rfl⟩
    · omega
    · omega

/-- Settles O39: the words by the layout of format S, the writes by what SET and SETN compute, the range by the two
signed readings. -/
theorem setWritesTheWholeRegister : Obligations.SetWritesTheWholeRegister := by
  refine ⟨fun val dest => ⟨decodeWord_wordS val dest rfl, decodeWord_wordS val dest rfl⟩,
    fun dest val s => ?_, set_range_iff⟩
  rw [← setValue_eq_append, ← setnValue_eq_append]
  exact ⟨exec_set_writes dest val s, exec_setn_writes dest val s⟩

end Sys2Proof.Machine

/-! PROOFS. The bitwise group's immediate forms (spec/45_bitwise.md R124, R125, R127, R128, R130, R131): the words of
format B with I = 1, and the second operand as bits 31..19 above the immediate. -/

namespace Sys2Proof.Machine

/-! The words of format B with an immediate. -/

/-- A word whose op code is 101 is read by format B (spec/30_encoding.md R45, R51). -/
theorem decodeAny_formatB {w : Word} (h : field w 0 3 = 0b101#3) : decodeAny config w = decodeB config w := by
  simp [decodeAny, h]

/-- The control bits and the op code of format B, from the left: F, I, fn, 101 (R51). -/
def lowB (F I : Bool) (fn : BitVec 2) : BitVec 7 := BitVec.ofBool F ++ BitVec.ofBool I ++ fn ++ 0b101#3

theorem lowB_op : ∀ F I fn, (lowB F I fn).extractLsb' 0 3 = 0b101#3 := by decide
theorem lowB_fn : ∀ F I fn, (lowB F I fn).extractLsb' 3 2 = fn := by decide
theorem lowB_I : ∀ F I fn, (lowB F I fn).getLsbD 5 = I := by decide
theorem lowB_F : ∀ F I fn, (lowB F I fn).getLsbD 6 = F := by decide

/-- An operation's instruction with I = 1: F = `insn[6]` chooses between the form that fills with ones and the form that
fills with zeros (R121). -/
def immediateForm (plain filled : Reg → Reg → BitVec 19 → Instr) (w : Word) : Instr :=
  (if bit w 6 then filled else plain) (regField config w 7) (regField config w 10) (field w 13 19)

theorem decodeB_and_immediate {w : Word} (hfn : field w 3 2 = 0#2) (hI : bit w 5 = true) :
    decodeB config w = .ok (immediateForm .andi .andf w) := by
  cases hF : bit w 6 <;> simp [decodeB, immediateForm, hfn, hI, hF]

theorem decodeB_or_immediate {w : Word} (hfn : field w 3 2 = 1#2) (hI : bit w 5 = true) :
    decodeB config w = .ok (immediateForm .ori .orf w) := by
  cases hF : bit w 6 <;> simp [decodeB, immediateForm, hfn, hI, hF]

theorem decodeB_xor_immediate {w : Word} (hfn : field w 3 2 = 2#2) (hI : bit w 5 = true) :
    decodeB config w = .ok (immediateForm .xori .xorf w) := by
  cases hF : bit w 6 <;> simp [decodeB, immediateForm, hfn, hI, hF]

/-- Where format B reads an operation's immediate forms, the words of the operation with I = 1 are those forms. -/
theorem decodesImmM_bitwise {fn : BitVec 2} {plain filled : Reg → Reg → BitVec 19 → Instr}
    (hB : ∀ w, field w 3 2 = fn → bit w 5 = true → decodeB config w = .ok (immediateForm plain filled w)) (F : Bool) :
    DecodesImmM (lowB F true fn) (if F then filled else plain) := by
  intro imm n2 n1
  change decodeWord config (wordM imm n2 n1 (lowB F true fn)) = _
  have hop := (field_wordM_op imm n2 n1 _).trans (lowB_op F true fn)
  have hfn := (field_wordM_low_3_2 imm n2 n1 _).trans (lowB_fn F true fn)
  have hI := (bit_wordM imm n2 n1 _ (by decide)).trans (lowB_I F true fn)
  have hF := (bit_wordM imm n2 n1 _ (by decide)).trans (lowB_F F true fn)
  apply decodeWord_of_decodeAny
  rw [decodeAny_formatB hop, hB _ hfn hI, immediateForm, hF]
  simp only [regField, field_wordM_7, field_wordM_10, field_wordM_13, gpr]

/-! The second operand, as bits 31..19 above the immediate. -/

theorem bitImm_eq_append (imm : BitVec 19) : bitImm imm = (0b0000000000000#13 ++ imm : BitVec 32) :=
  BitVec.setWidth_eq_append (by decide)

/-- The constant the F forms put over the immediate is thirteen ones above 19 zeros. -/
theorem bitImmFilled_eq_append (imm : BitVec 19) : bitImmFilled imm = (0b1111111111111#13 ++ imm : BitVec 32) := by
  have hones : (0xFFF80000#32 : Word) = 0b1111111111111#13 ++ 0#19 := rfl
  have himm : imm.zeroExtend 32 = 0b0000000000000#13 ++ imm := bitImm_eq_append imm
  rw [bitImmFilled, hones, himm, BitVec.or_append, BitVec.or_zero, BitVec.zero_or]

/-- Settles O52: the words by the layout of format B with F zero or one, the writes by the two forms of the second
operand. -/
theorem bitwiseImmediateFormsFillAbove : Obligations.BitwiseImmediateFormsFillAbove := by
  refine ⟨decodesImmM_bitwise (fun _ => decodeB_and_immediate) false,
    decodesImmM_bitwise (fun _ => decodeB_and_immediate) true,
    decodesImmM_bitwise (fun _ => decodeB_or_immediate) false,
    decodesImmM_bitwise (fun _ => decodeB_or_immediate) true,
    decodesImmM_bitwise (fun _ => decodeB_xor_immediate) false,
    decodesImmM_bitwise (fun _ => decodeB_xor_immediate) true, fun dest src imm s => ?_⟩
  rw [← bitImm_eq_append, ← bitImmFilled_eq_append]
  exact ⟨writeBack_writes dest _ s, writeBack_writes dest _ s, writeBack_writes dest _ s,
    writeBack_writes dest _ s, writeBack_writes dest _ s, writeBack_writes dest _ s⟩

end Sys2Proof.Machine

/-! PROOFS. The shift group's four operations (spec/46_shift.md R137), bit by bit: each operation satisfies its
specification, and a rotate's specification has one solution, so what the rule says of rotates is said of bit indices. -/

namespace Sys2Proof.Machine

/-! The operations meet their specifications. -/

theorem shiftRight_spec (a : Word) (n : Nat) : ShiftedRight a n (shiftRight a n) := by
  intro k _
  rw [shiftRight, BitVec.getLsbD_ushiftRight, Nat.add_comm n k]
  split
  · rfl
  · next above => exact BitVec.getLsbD_of_ge a _ (by omega)

theorem shiftLeft_spec (a : Word) (n : Nat) : ShiftedLeft a n (shiftLeft a n) := by
  intro k hk
  rw [shiftLeft, BitVec.getLsbD_shiftLeft]
  split
  · next kept => simp [hk, Nat.not_lt.2 kept]
  · next entered => simp [Nat.not_le.1 entered]

/-- The low 32 − n bits come from above; the others have wrapped round. -/
theorem rotateRight_spec (a : Word) {n : Nat} (hn : n ≤ 31) : RotatedRight a n (rotateRight a n) := by
  intro k hk
  rw [rotateRight, BitVec.getLsbD_rotateRight_of_lt (by omega)]
  by_cases moved : k < 32 - n
  · have source : (k + n) % 32 = n + k := by omega
    simp [moved, source]
  · have source : (k + n) % 32 = k - (32 - n) := by omega
    simp [moved, hk, source]

/-- The bits from n up come from below; the others have wrapped round. -/
theorem rotateLeft_spec (a : Word) {n : Nat} (hn : n ≤ 31) : RotatedLeft a n (rotateLeft a n) := by
  intro k hk
  rw [rotateLeft, BitVec.getLsbD_rotateLeft_of_le (by omega)]
  by_cases wrapped : k < n
  · have source : (k + 32 - n) % 32 = 32 - n + k := by omega
    simp [wrapped, source]
  · have source : (k + 32 - n) % 32 = k - n := by omega
    simp [wrapped, hk, source]

/-! What the specifications say of rotates. -/

theorem RotatedLeft.unique {a v w : Word} {n : Nat} (hv : RotatedLeft a n v) (hw : RotatedLeft a n w) : v = w :=
  BitVec.eq_of_getLsbD_eq fun k hk => (hv k hk).trans (hw k hk).symm

theorem rotatedLeft_zero (a : Word) : RotatedLeft a 0 a := by
  intro k hk
  have source : (k + 32 - 0) % 32 = k := by omega
  rw [source]

theorem rotatedRight_iff_rotatedLeft (a v : Word) {n : Nat} (hn : n ≤ 31) :
    RotatedRight a n v ↔ RotatedLeft a ((32 - n) % 32) v := by
  have source (k : Nat) : (k + n) % 32 = (k + 32 - (32 - n) % 32) % 32 := by omega
  simp only [RotatedRight, RotatedLeft, source]

/-! Rotates by the amount 0, and a rotate to the right as one to the left. -/

theorem rotateRight_eq_rotateLeft (a : Word) {n : Nat} (hn : n ≤ 31) :
    rotateRight a n = rotateLeft a ((32 - n) % 32) :=
  ((rotatedRight_iff_rotatedLeft a _ hn).1 (rotateRight_spec a hn)).unique (rotateLeft_spec a (by omega))

theorem rotateLeft_zero (a : Word) : rotateLeft a 0 = a :=
  (rotateLeft_spec a (by omega)).unique (rotatedLeft_zero a)

theorem rotateRight_zero (a : Word) : rotateRight a 0 = a :=
  (rotateRight_eq_rotateLeft a (by omega)).trans (rotateLeft_zero a)

/-- Settles O53: each operation meets its specification; the rotate laws hold because a rotate's bits determine it. -/
theorem shiftOperationsBitByBit : Obligations.ShiftOperationsBitByBit := by
  intro a n hn
  refine ⟨shiftRight_spec a n, rotateRight_spec a hn, shiftLeft_spec a n, rotateLeft_spec a hn, ?_,
    rotateRight_eq_rotateLeft a hn⟩
  rintro rfl
  exact ⟨BitVec.ushiftRight_zero a, rotateRight_zero a, BitVec.shiftLeft_zero a, rotateLeft_zero a⟩

end Sys2Proof.Machine

/-! PROOFS. Decoding by rows (spec/30_encoding.md section 4): the opcode table's mask and match decide the mnemonic, and
the operands are the fields the mnemonic's format reads. From this one description come the decoder's agreement with the
table, the words that are no instruction, the two directions of the round trip, and what the ignored bits do. -/

namespace Sys2Proof

/-! The operands each format reads. -/

/-- Formats M, A and B with a register third operand (R47, R50, R51). -/
def regsM (c : Config) (w : Word) (f : Reg → Reg → Reg → Instr) : Instr :=
  f (regField c w 7) (regField c w 10) (regField c w 13)

/-- Formats M, A and B with an immediate. -/
def immM (c : Config) (w : Word) (f : Reg → Reg → BitVec 19 → Instr) : Instr :=
  f (regField c w 7) (regField c w 10) (field w 13 19)

/-- Format S (R48). -/
def valS (c : Config) (w : Word) (f : Reg → BitVec 25 → Instr) : Instr := f (regField c w 4) (field w 7 25)

/-- Format H with an amount register (R52). -/
def regsH (c : Config) (w : Word) (f : Reg → Reg → Reg → Instr) : Instr :=
  f (regField c w 6) (regField c w 9) (regField c w 12)

/-- Format H with an immediate amount. -/
def immH (c : Config) (w : Word) (f : Reg → Reg → BitVec 5 → Instr) : Instr :=
  f (regField c w 6) (regField c w 9) (field w 12 5)

/-- The instruction of a mnemonic whose operands are the fields of a word. -/
def instrOf (c : Config) (w : Word) : Mnemonic → Instr
  | .jmp => .jmp (regField c w 5) (regField c w 11)
  | .jmpi => .jmpi (regField c w 5) (field w 11 21)
  | .jmpc => .jmpc (regField c w 5) (regField c w 11) (regField c w 8)
  | .jmpic => .jmpic (regField c w 5) (field w 11 21) (regField c w 8)
  | .stb => regsM c w .stb
  | .sth => regsM c w .sth
  | .stw => regsM c w .stw
  | .stbi => immM c w .stbi
  | .sthi => immM c w .sthi
  | .stwi => immM c w .stwi
  | .ldb => regsM c w .ldb
  | .ldh => regsM c w .ldh
  | .ldw => regsM c w .ldw
  | .ldbi => immM c w .ldbi
  | .ldhi => immM c w .ldhi
  | .ldwi => immM c w .ldwi
  | .set => valS c w .set
  | .setn => valS c w .setn
  | .setu => .setu (regField c w 3) (field w 6 6)
  | .add => regsM c w .add
  | .addi => immM c w .addi
  | .sub => regsM c w .sub
  | .subi => immM c w .subi
  | .mul => regsM c w .mul
  | .muli => immM c w .muli
  | .div => regsM c w .div
  | .divi => immM c w .divi
  | .mod => regsM c w .mod
  | .modi => immM c w .modi
  | .and => regsM c w .and
  | .andi => immM c w .andi
  | .andf => immM c w .andf
  | .or => regsM c w .or
  | .ori => immM c w .ori
  | .orf => immM c w .orf
  | .xor => regsM c w .xor
  | .xori => immM c w .xori
  | .xorf => immM c w .xorf
  | .bsr => regsH c w .bsr
  | .bsri => immH c w .bsri
  | .bsrr => regsH c w .bsrr
  | .bsrri => immH c w .bsrri
  | .bsl => regsH c w .bsl
  | .bsli => immH c w .bsli
  | .bslr => regsH c w .bslr
  | .bslri => immH c w .bslri

@[simp] theorem mnemonic_instrOf (c : Config) (w : Word) (m : Mnemonic) : (instrOf c w m).mnemonic = m := by
  cases m <;> rfl

/-! A word in a row has the row's control bits. -/

/-- A word lies in the row of a mnemonic (section 4). -/
def InRow (m : Mnemonic) (w : Word) : Prop := w &&& (opcodeRow m).mask = (opcodeRow m).pattern

theorem InRow.field_eq {m : Mnemonic} {w : Word} (h : InRow m w) (lo n : Nat) :
    field w lo n &&& field (opcodeRow m).mask lo n = field (opcodeRow m).pattern lo n := by
  rw [← h]
  exact BitVec.extractLsb'_and.symm

/-- A field the mask covers holds what the pattern holds. -/
theorem InRow.field_of_mask {m : Mnemonic} {w : Word} (h : InRow m w) {lo n : Nat}
    (hm : field (opcodeRow m).mask lo n = BitVec.allOnes n) : field w lo n = field (opcodeRow m).pattern lo n := by
  rw [← h.field_eq, hm, BitVec.and_allOnes]

/-- A bit the mask covers is the pattern's. -/
theorem InRow.bit_of_mask {m : Mnemonic} {w : Word} (h : InRow m w) {k : Nat} (hm : bit (opcodeRow m).mask k = true) :
    bit w k = bit (opcodeRow m).pattern k := by
  rw [bit] at hm
  rw [← h, bit, bit, BitVec.getLsbD_and, hm, Bool.and_true]

/-! The op code `insn[2:0]` selects the format (R45). -/

theorem decodeAny_J (c : Config) {w : Word} (h : field w 0 3 = 0#3) : decodeAny c w = .ok (decodeJ c w) := by
  simp [decodeAny, h]
theorem decodeAny_M (c : Config) {w : Word} (h : field w 0 3 = 1#3) : decodeAny c w = decodeM c w := by
  simp [decodeAny, h]
theorem decodeAny_S (c : Config) {w : Word} (h : field w 0 3 = 2#3) : decodeAny c w = .ok (decodeS c w) := by
  simp [decodeAny, h]
theorem decodeAny_U (c : Config) {w : Word} (h : field w 0 3 = 3#3) : decodeAny c w = .ok (decodeU c w) := by
  simp [decodeAny, h]
theorem decodeAny_A (c : Config) {w : Word} (h : field w 0 3 = 4#3) : decodeAny c w = decodeA c w := by
  simp [decodeAny, h]
theorem decodeAny_B (c : Config) {w : Word} (h : field w 0 3 = 5#3) : decodeAny c w = decodeB c w := by
  simp [decodeAny, h]
theorem decodeAny_H (c : Config) {w : Word} (h : field w 0 3 = 6#3) : decodeAny c w = .ok (decodeH c w) := by
  simp [decodeAny, h]
theorem decodeAny_unusedOp (c : Config) {w : Word} (h : field w 0 3 = 7#3) :
    decodeAny c w = .error .unusedOpCode := by
  simp [decodeAny, h]

/-- Every word of a row decodes to the row's mnemonic with the word's fields as operands. -/
theorem decodeAny_of_inRow (c : Config) {m : Mnemonic} {w : Word} (h : InRow m w) :
    decodeAny c w = .ok (instrOf c w m) := by
  cases m with
  | jmp | jmpi | jmpc | jmpic =>
    rw [decodeAny_J c (h.field_of_mask rfl), decodeJ, h.bit_of_mask (k := 3) rfl, h.bit_of_mask (k := 4) rfl]
    rfl
  | stb | sth | stw | stbi | sthi | stwi | ldb | ldh | ldw | ldbi | ldhi | ldwi =>
    rw [decodeAny_M c (h.field_of_mask rfl), decodeM, h.bit_of_mask (k := 3) rfl,
      h.field_of_mask (lo := 4) (n := 2) rfl, h.bit_of_mask (k := 6) rfl]
    rfl
  | set | setn =>
    rw [decodeAny_S c (h.field_of_mask rfl), decodeS, h.bit_of_mask (k := 3) rfl]
    rfl
  | setu => exact decodeAny_U c (h.field_of_mask rfl)
  | add | addi | sub | subi | mul | muli | div | divi | mod | modi =>
    rw [decodeAny_A c (h.field_of_mask rfl), decodeA, h.field_of_mask (lo := 3) (n := 3) rfl,
      h.bit_of_mask (k := 6) rfl]
    rfl
  | and | or | xor =>
    rw [decodeAny_B c (h.field_of_mask rfl), decodeB, h.field_of_mask (lo := 3) (n := 2) rfl,
      h.bit_of_mask (k := 5) rfl]
    rfl
  | andi | andf | ori | orf | xori | xorf =>
    rw [decodeAny_B c (h.field_of_mask rfl), decodeB, h.field_of_mask (lo := 3) (n := 2) rfl,
      h.bit_of_mask (k := 5) rfl, h.bit_of_mask (k := 6) rfl]
    rfl
  | bsr | bsri | bsrr | bsrri | bsl | bsli | bslr | bslri =>
    rw [decodeAny_H c (h.field_of_mask rfl), decodeH, h.bit_of_mask (k := 3) rfl, h.bit_of_mask (k := 5) rfl,
      h.bit_of_mask (k := 4) rfl]
    rfl

/-! The words of no row. -/

/-- The unused codes (R53, R54), by the seven low bits, which hold every code. -/
def UnusedCode (low : BitVec 7) : Prop :=
  low.extractLsb' 0 3 = 7#3 ∨
  (low.extractLsb' 0 3 = 1#3 ∧ low.extractLsb' 4 2 = 3#2) ∨
  (low.extractLsb' 0 3 = 4#3 ∧ 5 ≤ (low.extractLsb' 3 3).toNat) ∨
  (low.extractLsb' 0 3 = 5#3 ∧ low.extractLsb' 3 2 = 3#2)

theorem unusedCode_field (w : Word) : UnusedCode (field w 0 7) ↔
    w.extractLsb' 0 3 = 7#3 ∨
    (w.extractLsb' 0 3 = 1#3 ∧ w.extractLsb' 4 2 = 3#2) ∨
    (w.extractLsb' 0 3 = 4#3 ∧ 5 ≤ (w.extractLsb' 3 3).toNat) ∨
    (w.extractLsb' 0 3 = 5#3 ∧ w.extractLsb' 3 2 = 3#2) := by
  simp only [UnusedCode, field, BitVec.extractLsb'_extractLsb'_of_le, Nat.reduceAdd, Nat.reduceLeDiff]

/-- Width 3 is no width (R74). -/
theorem decodeM_unusedWidth (c : Config) {w : Word} (h : field w 4 2 = 3#2) : decodeM c w = .error .unusedWidth := by
  cases hL : bit w 3 <;> cases hI : bit w 6 <;> simp [decodeM, h, hL, hI]

/-- The operations 5, 6 and 7 are no arithmetic operation (R104). -/
theorem decodeA_unusedOperation (c : Config) {w : Word} (h : 5 ≤ (field w 3 3).toNat) :
    decodeA c w = .error .unusedArithmetic := by
  obtain hfn | hfn | hfn : (field w 3 3).toNat = 5 ∨ (field w 3 3).toNat = 6 ∨ (field w 3 3).toNat = 7 := by
    have := (field w 3 3).isLt
    omega
  all_goals cases hI : bit w 6 <;> simp [decodeA, hfn, hI]

/-- The operation 3 is no bitwise operation (R122). -/
theorem decodeB_unusedOperation (c : Config) {w : Word} (h : field w 3 2 = 3#2) :
    decodeB c w = .error .unusedBitwise := by
  cases hI : bit w 5 <;> cases hF : bit w 6 <;> simp [decodeB, h, hI, hF]

/-- A word with an unused code is rejected. -/
theorem decodeAny_of_unusedCode (c : Config) {w : Word} (h : UnusedCode (field w 0 7)) :
    ∃ why, decodeAny c w = .error why := by
  rcases (unusedCode_field w).1 h with hop | ⟨hop, hW⟩ | ⟨hop, hfn⟩ | ⟨hop, hfn⟩
  · exact ⟨_, decodeAny_unusedOp c hop⟩
  · exact ⟨_, (decodeAny_M c hop).trans (decodeM_unusedWidth c hW)⟩
  · exact ⟨_, (decodeAny_A c hop).trans (decodeA_unusedOperation c hfn)⟩
  · exact ⟨_, (decodeAny_B c hop).trans (decodeB_unusedOperation c hfn)⟩

/-- No row looks above bit 6. -/
theorem mask_le_7F (m : Mnemonic) : 0x7F#32 &&& (opcodeRow m).mask = (opcodeRow m).mask := by
  cases m <;> rfl

theorem and_7F (w : Word) : w &&& 0x7F#32 = (field w 0 7).zeroExtend 32 := by
  have h := wordM_and_7F (field w 13 19) (field w 10 3) (field w 7 3) (field w 0 7)
  rwa [wordM_fields] at h

/-- So the seven low bits decide the row. -/
theorem inRow_iff_low (m : Mnemonic) (w : Word) : InRow m w ↔ InRow m ((field w 0 7).zeroExtend 32) := by
  rw [InRow, InRow, ← and_7F, BitVec.and_assoc, mask_le_7F]

/-- Every code is some row's or unused: the 128 values of the low bits, one by one. -/
theorem row_or_unusedCode :
    ∀ low : BitVec 7, (∃ m ∈ Mnemonic.all, InRow m (low.zeroExtend 32)) ∨ UnusedCode low := by
  unfold InRow UnusedCode
  decide

/-- What every word is: in the row of the instruction it decodes to, or rejected for an unused code. -/
theorem decodeAny_cases (c : Config) (w : Word) :
    (∃ m, InRow m w ∧ decodeAny c w = .ok (instrOf c w m)) ∨
    (UnusedCode (field w 0 7) ∧ ∃ why, decodeAny c w = .error why) := by
  rcases row_or_unusedCode (field w 0 7) with ⟨m, _, hm⟩ | hu
  · have hrow : InRow m w := (inRow_iff_low m w).2 hm
    exact .inl ⟨m, hrow, decodeAny_of_inRow c hrow⟩
  · exact .inr ⟨hu, decodeAny_of_unusedCode c hu⟩

/-- A word decodes to an instruction exactly when it lies in its row and holds its operands. -/
theorem decodeAny_ok_iff {c : Config} {w : Word} {i : Instr} :
    decodeAny c w = .ok i ↔ InRow i.mnemonic w ∧ instrOf c w i.mnemonic = i := by
  constructor
  · intro h
    rcases decodeAny_cases c w with ⟨m, hm, e⟩ | ⟨_, why, e⟩
    · obtain rfl : instrOf c w m = i := Except.ok.inj (e.symm.trans h)
      rw [mnemonic_instrOf]
      exact ⟨hm, rfl⟩
    · exact nomatch e.symm.trans h
  · rintro ⟨hm, hi⟩
    rw [decodeAny_of_inRow c hm, hi]

/-! The whole decoder. -/

/-- The decoder keeps an instruction that the formats read, unless `STRICT_DONT_CARE` rejects its ignored bits (R55). -/
theorem decodeWord_ok_iff {c : Config} {w : Word} {i : Instr} :
    decodeWord c w = .ok i ↔
      decodeAny c w = .ok i ∧ (c.strictDontCare = true → w &&& (opcodeRow i.mnemonic).ignored = 0#32) := by
  cases hd : decodeAny c w with
  | error why => simp [decodeWord, hd]
  | ok j =>
    simp only [decodeWord, hd, canonical, Bool.and_eq_true, Bool.not_eq_true', beq_eq_false_iff_ne, Except.ok.injEq]
    constructor
    · intro h
      split at h
      · nomatch h
      · next hc =>
        obtain rfl : j = i := Except.ok.inj h
        exact ⟨rfl, fun hs => by_contra fun hn => hc ⟨hs, hn⟩⟩
    · rintro ⟨rfl, hc⟩
      rw [if_neg fun hn => hn.2 (hc hn.1)]

/-- Under the default setting the decoder is the formats' reading. -/
theorem decodeWord_config (w : Word) : decodeWord Machine.config w = decodeAny Machine.config w := by
  cases hd : decodeAny Machine.config w with
  | error why => simp [decodeWord, hd]
  | ok i => exact Machine.decodeWord_of_decodeAny hd

/-- Settles O3: a word in a row decodes to an instruction of the row, and an instruction's word is in its row. -/
theorem wordDecodesToItsTableRow : Obligations.WordDecodesToItsTableRow := by
  intro w m
  rw [decodeWord_config]
  constructor
  · intro h
    exact ⟨_, decodeAny_of_inRow _ h, mnemonic_instrOf _ _ _⟩
  · rintro ⟨i, hi, rfl⟩
    exact (decodeAny_ok_iff.1 hi).1

/-- A word is rejected exactly for an unused code. -/
theorem decodeWord_error_iff (w : Word) :
    (∃ why, decodeWord Machine.config w = .error why) ↔ UnusedCode (field w 0 7) := by
  rw [decodeWord_config]
  constructor
  · rintro ⟨why, h⟩
    rcases decodeAny_cases Machine.config w with ⟨m, _, e⟩ | ⟨hu, _⟩
    · exact nomatch e.symm.trans h
    · exact hu
  · exact decodeAny_of_unusedCode Machine.config

/-- Settles O4: what lies in no row has an unused code, and what has one is rejected. -/
theorem illegalWordsAreTheUnusedCodes : Obligations.IllegalWordsAreTheUnusedCodes := fun w =>
  (decodeWord_error_iff w).trans (unusedCode_field w)

/-- Settles O6: the strict setting changes nothing but the test of the ignored bits. -/
theorem strictDecoderKeepsCanonicalWords : Obligations.StrictDecoderKeepsCanonicalWords := by
  intro w i h
  have hd : decodeAny { Machine.config with strictDontCare := true } w = .ok i := (decodeWord_config w).symm.trans h
  rw [decodeWord, hd]
  by_cases hc : w &&& (opcodeRow i.mnemonic).ignored = 0#32
  · simp [canonical, hc]
  · simp [canonical, hc]

end Sys2Proof

/-! PROOFS. The two directions of the round trip (spec/30_encoding.md R46 to R52, R55). Under a mask that is laid out as
the word is, each field is masked by its own part; what a row's ignored bits leave of a word of the row is the canonical
word of its instruction. -/

namespace Sys2Proof

/-! A word under a mask, format by format. -/

theorem and_wordJ (w : Word) (a : BitVec 21) (b c : BitVec 3) (d : BitVec 5) : w &&& wordJ a b c d =
    wordJ (field w 11 21 &&& a) (field w 8 3 &&& b) (field w 5 3 &&& c) (field w 0 5 &&& d) := by
  conv_lhs => rw [← wordJ_fields w]
  exact BitVec.and_append.trans (by simp only [wordJ, BitVec.and_append])

theorem and_wordM (w : Word) (a : BitVec 19) (b c : BitVec 3) (d : BitVec 7) : w &&& wordM a b c d =
    wordM (field w 13 19 &&& a) (field w 10 3 &&& b) (field w 7 3 &&& c) (field w 0 7 &&& d) := by
  conv_lhs => rw [← wordM_fields w]
  exact BitVec.and_append.trans (by simp only [wordM, BitVec.and_append])

theorem and_wordS (w : Word) (a : BitVec 25) (b : BitVec 3) (c : BitVec 4) : w &&& wordS a b c =
    wordS (field w 7 25 &&& a) (field w 4 3 &&& b) (field w 0 4 &&& c) := by
  conv_lhs => rw [← wordS_fields w]
  exact BitVec.and_append.trans (by simp only [wordS, BitVec.and_append])

theorem and_layoutU (w : Word) (j : BitVec 20) (a : BitVec 6) (b c : BitVec 3) : w &&& layoutU j a b c =
    layoutU (field w 12 20 &&& j) (field w 6 6 &&& a) (field w 3 3 &&& b) (field w 0 3 &&& c) := by
  conv_lhs => rw [← layoutU_fields w]
  exact BitVec.and_append.trans (by simp only [layoutU, BitVec.and_append])

theorem and_layoutH (w : Word) (j : BitVec 15) (a : BitVec 5) (b c : BitVec 3) (d : BitVec 6) :
    w &&& layoutH j a b c d = layoutH (field w 17 15 &&& j) (field w 12 5 &&& a) (field w 9 3 &&& b) (field w 6 3 &&& c)
      (field w 0 6 &&& d) := by
  conv_lhs => rw [← layoutH_fields w]
  exact BitVec.and_append.trans (by simp only [layoutH, BitVec.and_append])

/-! A wide field of which only the three lowest bits are kept holds a register number (R42). -/

theorem and_low3 {n : Nat} (x : BitVec (n + 3)) : x &&& (0#n ++ 7#3) = 0#n ++ x.extractLsb' 0 3 := by
  have hx : x = x.extractLsb' 3 n ++ x.extractLsb' 0 3 := BitVec.extractLsb'_append_extractLsb'.symm
  have h7 : (7#3 : BitVec 3) = BitVec.allOnes 3 := rfl
  conv_lhs => rw [hx]
  rw [BitVec.and_append, BitVec.and_zero, h7, BitVec.and_allOnes]

theorem field_low3 (w : Word) (lo : Nat) {n : Nat} (hn : 3 ≤ n) : (field w lo n).extractLsb' 0 3 = field w lo 3 := by
  apply BitVec.eq_of_getLsbD_eq
  intro i hi
  rw [BitVec.getLsbD_extractLsb', getLsbD_field, getLsbD_field]
  grind

theorem field_and_regInJ (w : Word) : field w 11 21 &&& regInJ 7#3 = regInJ (field w 11 3) :=
  (and_low3 (n := 18) _).trans (congrArg regInJ (field_low3 w 11 (by decide)))

theorem field_and_regInM (w : Word) : field w 13 19 &&& regInM 7#3 = regInM (field w 13 3) :=
  (and_low3 (n := 16) _).trans (congrArg regInM (field_low3 w 13 (by decide)))

theorem field_and_regInH (w : Word) : field w 12 5 &&& regInH 7#3 = regInH (field w 12 3) :=
  (and_low3 (n := 2) _).trans (congrArg regInH (field_low3 w 12 (by decide)))

theorem and_7 (x : BitVec 3) : x &&& 7#3 = x := BitVec.and_allOnes

/-! What a row's ignored bits leave of a word of the row. Each lemma's last hypothesis is a closed fact of the row:
which fields it reads, and that of the control bits it reads those of its mask. -/

section
variable {m : Mnemonic} {w : Word}

theorem InRow.clear_wordJ (h : InRow m w) {a : BitVec 21} {b : BitVec 3}
    (hr : ~~~(opcodeRow m).ignored = wordJ a b 7#3 (field (opcodeRow m).mask 0 5)) :
    w &&& ~~~(opcodeRow m).ignored =
      wordJ (field w 11 21 &&& a) (field w 8 3 &&& b) (field w 5 3) (field (opcodeRow m).pattern 0 5) := by
  rw [hr, and_wordJ, h.field_eq, and_7]

theorem InRow.clear_wordM (h : InRow m w) {a : BitVec 19}
    (hr : ~~~(opcodeRow m).ignored = wordM a 7#3 7#3 (field (opcodeRow m).mask 0 7)) :
    w &&& ~~~(opcodeRow m).ignored =
      wordM (field w 13 19 &&& a) (field w 10 3) (field w 7 3) (field (opcodeRow m).pattern 0 7) := by
  rw [hr, and_wordM, h.field_eq, and_7, and_7]

theorem InRow.clear_wordS (h : InRow m w)
    (hr : ~~~(opcodeRow m).ignored = wordS (BitVec.allOnes 25) 7#3 (field (opcodeRow m).mask 0 4)) :
    w &&& ~~~(opcodeRow m).ignored = wordS (field w 7 25) (field w 4 3) (field (opcodeRow m).pattern 0 4) := by
  rw [hr, and_wordS, h.field_eq, and_7, BitVec.and_allOnes]

theorem InRow.clear_wordU (h : InRow m w)
    (hr : ~~~(opcodeRow m).ignored = wordU (BitVec.allOnes 6) 7#3 (field (opcodeRow m).mask 0 3)) :
    w &&& ~~~(opcodeRow m).ignored = wordU (field w 6 6) (field w 3 3) (field (opcodeRow m).pattern 0 3) := by
  rw [hr, wordU_eq, and_layoutU, h.field_eq, and_7, BitVec.and_allOnes, BitVec.and_zero, wordU_eq]

theorem InRow.clear_wordH (h : InRow m w) {a : BitVec 5}
    (hr : ~~~(opcodeRow m).ignored = wordH a 7#3 7#3 (field (opcodeRow m).mask 0 6)) :
    w &&& ~~~(opcodeRow m).ignored =
      wordH (field w 12 5 &&& a) (field w 9 3) (field w 6 3) (field (opcodeRow m).pattern 0 6) := by
  rw [hr, wordH_eq, and_layoutH, h.field_eq, and_7, and_7, BitVec.and_zero, wordH_eq]

end

/-! The round trip. -/

section
variable {c : Config} (hc : c.regMapOk = true)
include hc

/-- The encoder puts a register the decoder named back in its field. -/
theorem fieldOfReg_regField (w : Word) (lo : Nat) : c.fieldOfReg (regField c w lo) = field w lo 3 :=
  ((Machine.regMapOk_iff c).1 hc).2 _

/-- Encoding the instruction of a word of a row gives the word with its ignored bits cleared. -/
theorem encode_instrOf {m : Mnemonic} {w : Word} (h : InRow m w) :
    encode c (instrOf c w m) = w &&& ~~~(opcodeRow m).ignored := by
  cases m
  all_goals simp only [instrOf, regsM, immM, valS, regsH, immH, encode, fieldOfReg_regField hc]
  case jmp =>
    rw [h.clear_wordJ (a := regInJ 7#3) (b := 0#3) rfl, field_and_regInJ, BitVec.and_zero]
    rfl
  case jmpi =>
    rw [h.clear_wordJ (a := BitVec.allOnes 21) (b := 0#3) rfl, BitVec.and_allOnes, BitVec.and_zero]
    rfl
  case jmpc =>
    rw [h.clear_wordJ (a := regInJ 7#3) (b := 7#3) rfl, field_and_regInJ, and_7]
    rfl
  case jmpic =>
    rw [h.clear_wordJ (a := BitVec.allOnes 21) (b := 7#3) rfl, BitVec.and_allOnes, and_7]
    rfl
  case stb | sth | stw | ldb | ldh | ldw | add | sub | mul | div | mod | and | or | xor =>
    rw [h.clear_wordM (a := regInM 7#3) rfl, field_and_regInM]
    rfl
  case set | setn => exact (h.clear_wordS rfl).symm
  case setu => exact (h.clear_wordU rfl).symm
  case bsr | bsrr | bsl | bslr =>
    rw [h.clear_wordH (a := regInH 7#3) rfl, field_and_regInH]
    rfl
  case bsri | bsrri | bsli | bslri =>
    rw [h.clear_wordH (a := BitVec.allOnes 5) rfl, BitVec.and_allOnes]
    rfl
  all_goals
    rw [h.clear_wordM (a := BitVec.allOnes 19) rfl, BitVec.and_allOnes]
    rfl

/-- The decoder names the register the encoder put in the field. -/
theorem regField_of_field {w : Word} {lo : Nat} {r : Reg} (h : field w lo 3 = c.fieldOfReg r) :
    regField c w lo = r := by
  rw [regField, h, ((Machine.regMapOk_iff c).1 hc).1]

theorem regsM_wordM (a b d : Reg) (low : BitVec 7) (f : Reg → Reg → Reg → Instr) :
    regsM c (wordM (regInM (c.fieldOfReg d)) (c.fieldOfReg b) (c.fieldOfReg a) low) f = f a b d := by
  rw [regsM, regField_of_field hc (field_wordM_7 _ _ _ _), regField_of_field hc (field_wordM_10 _ _ _ _),
    regField_of_field hc ((field_wordM_reg _ _ _ _).trans (regInM_low _))]

theorem immM_wordM (a b : Reg) (imm : BitVec 19) (low : BitVec 7) (f : Reg → Reg → BitVec 19 → Instr) :
    immM c (wordM imm (c.fieldOfReg b) (c.fieldOfReg a) low) f = f a b imm := by
  rw [immM, regField_of_field hc (field_wordM_7 _ _ _ _), regField_of_field hc (field_wordM_10 _ _ _ _), field_wordM_13]

theorem valS_wordS (a : Reg) (val : BitVec 25) (low : BitVec 4) (f : Reg → BitVec 25 → Instr) :
    valS c (wordS val (c.fieldOfReg a) low) f = f a val := by
  rw [valS, regField_of_field hc (field_wordS_4 _ _ _), field_wordS_7]

theorem regsH_wordH (a b d : Reg) (low : BitVec 6) (f : Reg → Reg → Reg → Instr) :
    regsH c (wordH (regInH (c.fieldOfReg d)) (c.fieldOfReg b) (c.fieldOfReg a) low) f = f a b d := by
  rw [wordH_eq, regsH, regField_of_field hc (field_layoutH_6 _ _ _ _ _),
    regField_of_field hc (field_layoutH_9 _ _ _ _ _),
    regField_of_field hc ((field_layoutH_reg _ _ _ _ _).trans (regInH_low _))]

theorem immH_wordH (a b : Reg) (imm : BitVec 5) (low : BitVec 6) (f : Reg → Reg → BitVec 5 → Instr) :
    immH c (wordH imm (c.fieldOfReg b) (c.fieldOfReg a) low) f = f a b imm := by
  rw [wordH_eq, immH, regField_of_field hc (field_layoutH_6 _ _ _ _ _),
    regField_of_field hc (field_layoutH_9 _ _ _ _ _), field_layoutH_12]

/-- The fields of a canonical word are the operands of its instruction. -/
theorem instrOf_encode (i : Instr) : instrOf c (encode c i) i.mnemonic = i := by
  have hr := ((Machine.regMapOk_iff c).1 hc).1
  cases i with
  | jmp | jmpi | jmpc | jmpic => simp [instrOf, Instr.mnemonic, encode, regField, hr]
  | stb | sth | stw | ldb | ldh | ldw | add | sub | mul | div | mod | and | or | xor => exact regsM_wordM hc _ _ _ _ _
  | set | setn => exact valS_wordS hc _ _ _ _
  | setu => simp [instrOf, Instr.mnemonic, encode, wordU_eq, regField, hr]
  | bsr | bsrr | bsl | bslr => exact regsH_wordH hc _ _ _ _ _
  | bsri | bsrri | bsli | bslri => exact immH_wordH hc _ _ _ _ _
  | _ => exact immM_wordM hc _ _ _ _ _

end

/-- A canonical word lies in its instruction's row, whatever the register map. -/
theorem encode_inRow (c : Config) (i : Instr) : InRow i.mnemonic (encode c i) := by
  cases i with
  | jmp | jmpi | jmpc | jmpic => exact (wordJ_and_1F _ _ _ _).trans rfl
  | and | or | xor => exact (wordM_and_3F _ _ _ _).trans rfl
  | set | setn => exact (wordS_and_0F _ _ _).trans rfl
  | setu => exact (layoutU_and_07 _ _ _ _).trans rfl
  | bsr | bsri | bsrr | bsrri | bsl | bsli | bslr | bslri => exact (layoutH_and_3F _ _ _ _ _).trans rfl
  | _ => exact (wordM_and_7F _ _ _ _).trans rfl

/-- A canonical word has no ignored bit set: it is what clearing them leaves of itself. -/
theorem encode_canonical {c : Config} (hc : c.regMapOk = true) (i : Instr) :
    encode c i &&& (opcodeRow i.mnemonic).ignored = 0#32 := by
  have h := encode_instrOf hc (encode_inRow c i)
  rw [instrOf_encode hc] at h
  rw [h, BitVec.and_assoc, BitVec.not_and_self]
  exact BitVec.and_zero

/-- Settles O1: a canonical word lies in its row, its fields are the operands, and no ignored bit is set for the strict
decoder to reject. -/
theorem decodeOfEncodeIsTheInstruction : Obligations.DecodeOfEncodeIsTheInstruction := fun c hc i =>
  decodeWord_ok_iff.2 ⟨decodeAny_ok_iff.2 ⟨encode_inRow c i, instrOf_encode hc i⟩, fun _ => encode_canonical hc i⟩

/-- Two instructions have two canonical words. -/
theorem encode_injective {c : Config} (hc : c.regMapOk = true) : Function.Injective (encode c) := by
  intro i j h
  have hi := decodeOfEncodeIsTheInstruction c hc i
  rw [h, decodeOfEncodeIsTheInstruction c hc j] at hi
  exact (Except.ok.inj hi).symm

/-- Settles O2: a word that decodes lies in its row and holds the operands, so encoding them clears its ignored bits. -/
theorem encodeOfDecodeClearsIgnoredBits : Obligations.EncodeOfDecodeClearsIgnoredBits := by
  intro c hc w i h
  obtain ⟨hrow, hi⟩ := decodeAny_ok_iff.1 (decodeWord_ok_iff.1 h).1
  have henc := encode_instrOf hc hrow
  rwa [hi] at henc

/-- No row looks at a bit it ignores. -/
theorem mask_not_ignored (m : Mnemonic) : ~~~(opcodeRow m).ignored &&& (opcodeRow m).mask = (opcodeRow m).mask := by
  cases m <;> rfl

/-- So the bits a row does not ignore decide whether a word lies in it. -/
theorem inRow_congr {m : Mnemonic} {w w' : Word}
    (h : w &&& ~~~(opcodeRow m).ignored = w' &&& ~~~(opcodeRow m).ignored) : InRow m w ↔ InRow m w' := by
  rw [InRow, InRow, ← mask_not_ignored, ← BitVec.and_assoc, h, BitVec.and_assoc]

/-- Words that differ only outside a mask are the same under it. -/
theorem and_eq_of_xor_and {x y z : Word} (h : (x ^^^ y) &&& z = 0#32) : x &&& z = y &&& z := by
  have hbit : ∀ a b c : Bool, ((a ^^ b) && c) = false → (a && c) = (b && c) := by decide
  apply BitVec.eq_of_getLsbD_eq
  intro k _
  have hk := congrArg (BitVec.getLsbD · k) h
  simp only [BitVec.getLsbD_and, BitVec.getLsbD_xor, BitVec.getLsbD_zero] at hk ⊢
  exact hbit _ _ _ hk

/-- Settles O5: the other word lies in the same row, and both instructions have the same canonical word, from which the
decoder reads one instruction. -/
theorem ignoredBitsChangeNothing : Obligations.IgnoredBitsChangeNothing := by
  intro w w' i h hx
  have hc := Machine.config_regMapOk
  rw [decodeWord_config] at h ⊢
  obtain ⟨hrow, hi⟩ := decodeAny_ok_iff.1 h
  have hsame : w &&& ~~~(opcodeRow i.mnemonic).ignored = w' &&& ~~~(opcodeRow i.mnemonic).ignored :=
    and_eq_of_xor_and hx
  have hrow' : InRow i.mnemonic w' := (inRow_congr hsame).1 hrow
  have henc : encode Machine.config (instrOf Machine.config w' i.mnemonic) = encode Machine.config i := by
    rw [encode_instrOf hc hrow', ← hsame, ← encode_instrOf hc hrow, hi]
  exact decodeAny_ok_iff.2 ⟨hrow', encode_injective hc henc⟩

end Sys2Proof

/-! PROOFS. The words of the instructions (spec/30_encoding.md R46 to R52): a word laid out by a format lies in the row
its low bits name, whatever its other fields hold, so it decodes to that row's instruction on its fields. -/

namespace Sys2Proof.Machine

/-- A word of a row decodes to the row's instruction on the word's fields. -/
theorem decodeWord_of_inRow {m : Mnemonic} {w : Word} (h : InRow m w) :
    decodeWord config w = .ok (instrOf config w m) :=
  decodeWord_of_decodeAny (decodeAny_of_inRow config h)

/-- Bits that cover a row's mask decide whether a word lies in the row. -/
theorem inRow_of_low {m : Mnemonic} {w k v : Word} (hw : w &&& k = v) (hv : InRow m v)
    (hk : k &&& (opcodeRow m).mask = (opcodeRow m).mask) : InRow m w := by
  rw [InRow, ← hk, ← BitVec.and_assoc, hw]
  exact hv

/-! Formats M, A and B. -/

theorem decodesRegM {m : Mnemonic} {low : BitVec 7} {f : Reg → Reg → Reg → Instr} (hrow : InRow m (low.zeroExtend 32))
    (hf : ∀ w, instrOf config w m = regsM config w f) : DecodesRegM low f := by
  intro junk n3 n2 n1
  change decodeWord config (wordM (junk ++ n3) n2 n1 low) = _
  rw [decodeWord_of_inRow (inRow_of_low (wordM_and_7F _ _ _ _) hrow (mask_le_7F m)), hf]
  simp only [regsM, regField, field_wordM_7, field_wordM_10, field_wordM_reg, BitVec.extractLsb'_append_eq_right, gpr]

theorem decodesImmM {m : Mnemonic} {low : BitVec 7} {f : Reg → Reg → BitVec 19 → Instr}
    (hrow : InRow m (low.zeroExtend 32)) (hf : ∀ w, instrOf config w m = immM config w f) : DecodesImmM low f := by
  intro imm n2 n1
  change decodeWord config (wordM imm n2 n1 low) = _
  rw [decodeWord_of_inRow (inRow_of_low (wordM_and_7F _ _ _ _) hrow (mask_le_7F m)), hf]
  simp only [immM, regField, field_wordM_7, field_wordM_10, field_wordM_13, gpr]

/-! Format H. -/

theorem decodesRegH {m : Mnemonic} {low : BitVec 6} {f : Reg → Reg → Reg → Instr} (hrow : InRow m (low.zeroExtend 32))
    (hmask : 0x3F#32 &&& (opcodeRow m).mask = (opcodeRow m).mask) (hf : ∀ w, instrOf config w m = regsH config w f) :
    DecodesRegH low f := by
  intro junk n3 n2 n1
  have hlayout : (junk ++ n3 ++ n2 ++ n1 ++ low : BitVec 32) =
      layoutH (junk.extractLsb' 2 15) (junk.extractLsb' 0 2 ++ n3) n2 n1 low := by
    apply BitVec.eq_of_getLsbD_eq
    intro i _
    simp only [getLsbD_layoutH, BitVec.getLsbD_append, BitVec.getLsbD_extractLsb']
    grind
  rw [hlayout, decodeWord_of_inRow (inRow_of_low (layoutH_and_3F _ _ _ _ _) hrow hmask), hf]
  simp only [regsH, regField, field_layoutH_6, field_layoutH_9, field_layoutH_reg,
    BitVec.extractLsb'_append_eq_right, gpr]

theorem decodesImmH {m : Mnemonic} {low : BitVec 6} {f : Reg → Reg → BitVec 5 → Instr}
    (hrow : InRow m (low.zeroExtend 32)) (hmask : 0x3F#32 &&& (opcodeRow m).mask = (opcodeRow m).mask)
    (hf : ∀ w, instrOf config w m = immH config w f) : DecodesImmH low f := by
  intro junk imm n2 n1
  change decodeWord config (layoutH junk imm n2 n1 low) = _
  rw [decodeWord_of_inRow (inRow_of_low (layoutH_and_3F _ _ _ _ _) hrow hmask), hf]
  simp only [immH, regField, field_layoutH_6, field_layoutH_9, field_layoutH_12, gpr]

/-! Format J. -/

theorem decodeWord_jmp (junk : BitVec 18) (off junk' base : BitVec 3) :
    decodeWord config (junk ++ off ++ junk' ++ base ++ 0b00000#5 : BitVec 32) = .ok (.jmp (gpr base) (gpr off)) := by
  have hrow : InRow .jmp (wordJ (junk ++ off) junk' base 0b00000#5) := (wordJ_and_1F _ _ _ _).trans rfl
  refine (decodeWord_of_inRow hrow).trans ?_
  simp only [instrOf, regField, field_wordJ_5, field_wordJ_reg, BitVec.extractLsb'_append_eq_right, gpr]

theorem decodeWord_jmpi (imm : BitVec 21) (junk base : BitVec 3) :
    decodeWord config (imm ++ junk ++ base ++ 0b01000#5 : BitVec 32) = .ok (.jmpi (gpr base) imm) := by
  have hrow : InRow .jmpi (wordJ imm junk base 0b01000#5) := (wordJ_and_1F _ _ _ _).trans rfl
  refine (decodeWord_of_inRow hrow).trans ?_
  simp only [instrOf, regField, field_wordJ_5, field_wordJ_11, gpr]

theorem decodeWord_jmpc (junk : BitVec 18) (off ctrl base : BitVec 3) :
    decodeWord config (junk ++ off ++ ctrl ++ base ++ 0b10000#5 : BitVec 32) =
      .ok (.jmpc (gpr base) (gpr off) (gpr ctrl)) := by
  have hrow : InRow .jmpc (wordJ (junk ++ off) ctrl base 0b10000#5) := (wordJ_and_1F _ _ _ _).trans rfl
  refine (decodeWord_of_inRow hrow).trans ?_
  simp only [instrOf, regField, field_wordJ_5, field_wordJ_8, field_wordJ_reg, BitVec.extractLsb'_append_eq_right, gpr]

theorem decodeWord_jmpic (imm : BitVec 21) (ctrl base : BitVec 3) :
    decodeWord config (imm ++ ctrl ++ base ++ 0b11000#5 : BitVec 32) = .ok (.jmpic (gpr base) imm (gpr ctrl)) := by
  have hrow : InRow .jmpic (wordJ imm ctrl base 0b11000#5) := (wordJ_and_1F _ _ _ _).trans rfl
  refine (decodeWord_of_inRow hrow).trans ?_
  simp only [instrOf, regField, field_wordJ_5, field_wordJ_8, field_wordJ_11, gpr]

/-! Format U. -/

theorem decodeWord_setu (junk : BitVec 20) (val : BitVec 6) (dest : BitVec 3) :
    decodeWord config (junk ++ val ++ dest ++ 0b011#3 : BitVec 32) = .ok (.setu (gpr dest) val) := by
  have hrow : InRow .setu (layoutU junk val dest 0b011#3) := (layoutU_and_07 _ _ _ _).trans rfl
  refine (decodeWord_of_inRow hrow).trans ?_
  simp only [instrOf, regField, field_layoutU_3, field_layoutU_6, gpr]

end Sys2Proof.Machine

/-! PROOFS. Assembler lines (spec/30_encoding.md R57): an operand is read exactly when it is printed so, and a line's
operands are read one after the other. -/

namespace Sys2Proof

/-- An operand names a register exactly when it is the register's number. -/
theorem asReg_eq_some {o : AsmOperand} {r : Reg} : o.asReg = some r ↔ r.toAsm = o := by
  cases o with
  | num v => simp [AsmOperand.asReg, Reg.toAsm]
  | reg n =>
    simp only [AsmOperand.asReg, Reg.toAsm, AsmOperand.reg.injEq]
    constructor
    · intro h
      simpa using List.find?_some h
    · rintro rfl
      cases r <;> rfl

/-- An operand gives an immediate exactly when it is the immediate's unsigned value. -/
theorem asImm_eq_some {n : Nat} {o : AsmOperand} {v : BitVec n} : o.asImm n = some v ↔ immToAsm v = o := by
  cases o with
  | reg m => simp [AsmOperand.asImm, immToAsm]
  | num m =>
    simp only [AsmOperand.asImm, immToAsm, AsmOperand.num.injEq]
    constructor
    · intro h
      split at h
      · next hm =>
        obtain rfl := Option.some.inj h
        rw [BitVec.toNat_ofNat, Nat.mod_eq_of_lt hm]
      · nomatch h
    · rintro rfl
      rw [if_pos v.isLt, BitVec.ofNat_toNat, BitVec.setWidth_eq]

/-- The line of an instruction is read back as the instruction. -/
theorem toInstr_toAsm (i : Instr) : i.toAsm.toInstr = some i := by
  have hr (r : Reg) : r.toAsm.asReg = some r := asReg_eq_some.2 rfl
  have hv {n : Nat} (v : BitVec n) : (immToAsm v).asImm n = some v := asImm_eq_some.2 rfl
  cases i <;> simp [Instr.toAsm, AsmLine.toInstr, hr, hv]

/-- A line that is read as an instruction is the instruction's: each operand is what was read from it. -/
theorem toAsm_of_toInstr {l : AsmLine} {i : Instr} (h : l.toInstr = some i) : i.toAsm = l := by
  obtain ⟨m, ops⟩ := l
  rcases ops with _ | ⟨o1, _ | ⟨o2, _ | ⟨o3, _ | ⟨o4, rest⟩⟩⟩⟩
  case nil | cons.nil | cons.cons.cons.cons => cases m <;> exact nomatch (h : none = some i)
  case cons.cons.nil =>
    cases m with
    | jmp | jmpi | set | setn | setu =>
      simp only [AsmLine.toInstr, Option.bind_eq_bind, Option.bind_eq_some_iff, asReg_eq_some,
        asImm_eq_some, Option.pure_def, Option.some.injEq] at h
      obtain ⟨first, rfl, second, rfl, rfl⟩ := h
      rfl
    | _ => exact nomatch (h : none = some i)
  case cons.cons.cons.nil =>
    cases m with
    | jmp | jmpi | set | setn | setu => exact nomatch (h : none = some i)
    | _ =>
      simp only [AsmLine.toInstr, Option.bind_eq_bind, Option.bind_eq_some_iff, asReg_eq_some,
        asImm_eq_some, Option.pure_def, Option.some.injEq] at h
      obtain ⟨first, rfl, second, rfl, third, rfl, rfl⟩ := h
      rfl

/-- Settles O7: a line is read exactly as the instruction whose line it is. -/
theorem assemblerLineIsItsInstruction : Obligations.AssemblerLineIsItsInstruction := by
  intro l i
  constructor
  · exact toAsm_of_toInstr
  · rintro rfl
    exact toInstr_toAsm i

end Sys2Proof

namespace Sys2Proof.Machine

/-- Settles O8: the eight words, decoded one by one. -/
theorem exampleWordsDecode : Obligations.ExampleWordsDecode := by
  unfold Obligations.ExampleWordsDecode
  decide

/-- Settles O9: the register map and its inverse are the defaults' (R11). -/
theorem fieldValueNamesTheNextRegister : Obligations.FieldValueNamesTheNextRegister :=
  ⟨by decide, regOfField_fieldOfReg⟩

end Sys2Proof.Machine

/-! PROOFS. One step (spec/20_memory.md R30, spec/60_exceptions.md R150 to R156): what the fetch answers, why a step
faults, and how a run ends. -/

namespace Sys2Proof.Machine

/-! The fetch. -/

theorem fetchWord_misaligned {s : State} (h : s.pc.toNat % 4 ≠ 0) : fetchWord s = .error (.misalignedFetch s.pc) := by
  rw [fetchWord, if_pos h]

theorem fetchWord_outOfRange {s : State} (h : s.pc.toNat % 4 = 0) (hr : 0x000FFFFC < s.pc.toNat) :
    fetchWord s = .error (.fetchOutOfRange s.pc) := by
  have hend : s.pc.toNat + 3 > ramLast := by
    rw [ramLast]
    omega
  rw [fetchWord, if_neg (not_not.2 h), if_pos hend]

theorem fetchWord_unwritten {s : State} (h : s.pc.toNat % 4 = 0) (hr : s.pc.toNat ≤ 0x000FFFFC) {k : Nat} (hk : k < 4)
    (hn : Memory.read s.mem (s.pc.toNat + k) = none) : fetchWord s = .error (.unwrittenFetch s.pc) := by
  have hend : ¬s.pc.toNat + 3 > ramLast := by
    rw [ramLast]
    omega
  have hread : Memory.readLE s.mem s.pc.toNat 4 = none := (readLE_eq_none _ _ _).2 ⟨k, hk, hn⟩
  rw [fetchWord, if_neg (not_not.2 h), if_neg hend, hread]

/-- A step whose fetch faults. -/
theorem step_of_fetch_error {s : State} {f : Fault} (h : fetchWord s = .error f) : step s = .fault f := by
  rw [step, h, orRaise_error]

/-- Settles O11: the fetch tests alignment, then range. -/
theorem fetchChecksAlignmentThenRange : Obligations.FetchChecksAlignmentThenRange := fun _ =>
  ⟨fun h => step_of_fetch_error (fetchWord_misaligned h), fun h hr => step_of_fetch_error (fetchWord_outOfRange h hr)⟩

/-- Settles O10: the four bytes are the word fetched, least significant first. -/
theorem stepRunsTheDecodedInstruction : Obligations.StepRunsTheDecodedInstruction := by
  intro s b0 b1 b2 b3 i hal hr h0 h1 h2 h3 hd
  exact step_of_decode (fetchWord_ok.2 ⟨hal, hr, readLE_four h0 h1 h2 h3⟩) hd

/-- Settles O12: the unused codes are what the decoder rejects. -/
theorem illegalWordFaultsAtDecode : Obligations.IllegalWordFaultsAtDecode := by
  intro s insn hf hu
  obtain ⟨why, hd⟩ := (illegalWordsAreTheUnusedCodes insn).2 hu
  exact step_of_illegal hf hd

/-- A load of a byte that nothing has written. -/
theorem memRead_unwritten {s : State} {ea : Word} {w : Width} {k : Nat} (h : ea.toNat % w.bytes = 0)
    (hr : ea.toNat ≤ 0x000FFFFF) (hk : k < w.bytes) (hn : Memory.read s.mem (ea.toNat + k) = none) :
    memRead s ea w = .error (.unwrittenRead s.pc ea w) := by
  have hread : Memory.readLE s.mem ea.toNat w.bytes = none := (readLE_eq_none _ _ _).2 ⟨k, hk, hn⟩
  rw [memRead, accessFault_none s.pc ea w .load h hr, hread]

/-- Settles O35: a value of several bytes cannot be read when one of them is missing. -/
theorem unwrittenBytesFault : Obligations.UnwrittenBytesFault :=
  ⟨fun _ _ h hr hk hn => step_of_fetch_error (fetchWord_unwritten h hr hk hn),
    fun _ _ _ _ h hr hk hn => memRead_unwritten h hr hk hn⟩

/-! Faults and refusals. -/

/-- Why an instruction faulted is the cause of the fault of the step that ran it. -/
theorem faultCause_of_exec {s : State} {insn : Word} {i : Instr} {f : Fault} (hf : fetchWord s = .ok insn)
    (hd : decodeWord config insn = .ok i) (h : exec i s = .fault f) : FaultCause s f := by
  rcases exec_fault h with ⟨rfl, hb⟩ | ⟨kind, w, ea, ha, ⟨rfl, hm⟩ | ⟨rfl, hal, hr⟩ | ⟨rfl, rfl, hk⟩⟩
  · exact ⟨rfl, insn, i, hf, hd, hb⟩
  · exact ⟨rfl, hm, insn, i, hf, hd, ha⟩
  · exact ⟨rfl, hal, hr, insn, i, hf, hd, ha⟩
  · exact ⟨rfl, hk, insn, i, hf, hd, ha⟩

theorem faultCause_of_fetch {s : State} {f : Fault} (h : fetchWord s = .error f) : FaultCause s f := by
  rcases fetchWord_error h with ⟨rfl, hm⟩ | ⟨rfl, hal, hr⟩ | ⟨rfl, hal, hr, hk⟩
  · exact ⟨rfl, hm⟩
  · exact ⟨rfl, hal, hr⟩
  · exact ⟨rfl, hal, hr, hk⟩

/-- Settles O13: a step faults in its fetch, at its decode, or in its instruction. -/
theorem everyFaultHasItsCause : Obligations.EveryFaultHasItsCause := by
  intro s f h
  rcases step_cases s with ⟨g, hf, e⟩ | ⟨insn, why, hf, hd, e⟩ | ⟨insn, i, hf, hd, e⟩
  · obtain rfl : g = f := Host.Outcome.fault.inj (e.symm.trans h)
    exact faultCause_of_fetch hf
  · obtain rfl := Host.Outcome.fault.inj (e.symm.trans h)
    exact ⟨rfl, hf, why, hd⟩
  · exact faultCause_of_exec hf hd (e.symm.trans h)

/-- A division completes or faults: `y` is `quotient` or `remainder`. -/
theorem orRaise_writeBack_not_refused (y : Except Fault Word) (d : Reg) (s : State) (r : Refusal) :
    (orRaise y fun v => writeBack config d v s) ≠ .refused r := by
  cases y with
  | ok v => exact fun h => nomatch h
  | error f => exact fun h => nomatch h

/-- Every instruction has a meaning. -/
theorem exec_not_refused (i : Instr) (s : State) (r : Refusal) : exec i s ≠ .refused r := by
  cases i with
  | jmpc b o c => exact fun h => nomatch (jumpIf_config _ _ _ s).symm.trans h
  | jmpic b o c => exact fun h => nomatch (jumpIf_config _ _ _ s).symm.trans h
  | stb a b o | sth a b o | stw a b o | stbi a b o | sthi a b o | stwi a b o => exact store_not_refused _ _ _ _ s r
  | ldb d b o | ldh d b o | ldw d b o | ldbi d b o | ldhi d b o | ldwi d b o => exact load_not_refused _ _ _ _ s r
  | div d a b | divi d a b | mod d a b | modi d a b => exact orRaise_writeBack_not_refused _ d s r
  | _ => exact fun h => nomatch h

/-- Settles O14: the fetch and the decode fault, and every instruction has a meaning. -/
theorem noStepIsRefused : Obligations.NoStepIsRefused := by
  intro s r h
  rcases step_cases s with ⟨f, _, e⟩ | ⟨_, _, _, _, e⟩ | ⟨_, i, _, _, e⟩
  · exact nomatch e.symm.trans h
  · exact nomatch e.symm.trans h
  · exact exec_not_refused i s r (e.symm.trans h)

/-! Runs. -/

/-- What is claimed of the end of a run of at most `k` steps from `s`. -/
def EndsAsClaimed (halt : State → Bool) (k : Nat) (s : State) : RunEnd → Prop
  | .halted u => halt u = true ∧ ∃ n, n ≤ k ∧ RunsTo halt s n u
  | .faulted u f => halt u = false ∧ step u = .fault f ∧ ∃ n, n < k ∧ RunsTo halt s n u
  | .refused _ _ => True
  | .running u => halt u = false ∧ RunsTo halt s k u

/-- A claim on the run after one step is the claim on the run one step longer. -/
theorem EndsAsClaimed.prepend {halt : State → Bool} {k : Nat} {s t : State} {e : RunEnd} (hs : halt s = false)
    (h : step s = .next t) (he : EndsAsClaimed halt k t e) : EndsAsClaimed halt (k + 1) s e := by
  cases e with
  | halted u =>
    obtain ⟨hu, n, hn, hr⟩ := he
    exact ⟨hu, n + 1, by omega, hr.prepend hs h⟩
  | faulted u f =>
    obtain ⟨hu, hf, n, hn, hr⟩ := he
    exact ⟨hu, hf, n + 1, by omega, hr.prepend hs h⟩
  | refused u r => trivial
  | running u =>
    obtain ⟨hu, hr⟩ := he
    exact ⟨hu, hr.prepend hs h⟩

theorem runUntil_ends (halt : State → Bool) (k : Nat) (s : State) : EndsAsClaimed halt k s (runUntil halt k s) := by
  induction k generalizing s with
  | zero =>
    rw [runUntil]
    split
    · next hs => exact ⟨hs, 0, le_rfl, .start⟩
    · next hs => exact ⟨Bool.eq_false_iff.2 hs, .start⟩
  | succ k ih =>
    rw [runUntil]
    split
    · next hs => exact ⟨hs, 0, by omega, .start⟩
    · next hs =>
      have hs' : halt s = false := Bool.eq_false_iff.2 hs
      split
      · next t ht => exact (ih t).prepend hs' ht
      · next f hf => exact ⟨hs', hf, 0, by omega, .start⟩
      · trivial

/-- Settles O15: the three claims are the claim on the run's end, whichever it is. -/
theorem runsEndInReachedStates : Obligations.RunsEndInReachedStates := by
  intro halt k s u
  have h := runUntil_ends halt k s
  refine ⟨fun f e => ?_, fun e => ?_, fun e => ?_⟩ <;> rw [e] at h <;> exact h

end Sys2Proof.Machine

/-! PROOFS. Frames and invariants of all instructions, from the three shapes of a completed instruction (`exec_next`):
RAM (spec/20_memory.md sections 1 and 4), registers and the pc (spec/10_state.md sections 1 and 2), and boot
(spec/70_reset_and_hazards.md R172). -/

namespace Sys2Proof.Machine

/-! RAM. -/

/-- A step that completes is an instruction that completes. -/
theorem exec_of_step_next {s t : State} (h : step s = .next t) : ∃ i, exec i s = .next t := by
  rcases step_cases s with ⟨f, _, e⟩ | ⟨_, _, _, _, e⟩ | ⟨_, i, _, _, e⟩
  · exact nomatch e.symm.trans h
  · exact nomatch e.symm.trans h
  · exact ⟨i, e.symm.trans h⟩

/-- What an instruction that completes does to RAM: nothing, or one store, whose bytes all lie in RAM. -/
theorem exec_next_mem {i : Instr} {s t : State} (h : exec i s = .next t) :
    t.mem = s.mem ∨ ∃ w ea v, accessOf i s = some (.store, w, ea) ∧ ea.toNat + w.bytes ≤ ramLast + 1 ∧
      t.mem = Memory.writeLE s.mem ea.toNat w.bytes v := by
  rcases exec_next h with ⟨_, _, _, p, rfl⟩ | ⟨_, ⟨d, v, _, rfl⟩, _⟩ | ⟨_, _, w, ea, v, ha, hal, hr, rfl⟩
  · exact .inl rfl
  · exact .inl rfl
  · exact .inr ⟨w, ea, v, ha, aligned_end ea w hal hr, rfl⟩

/-- Settles O16: a store inside RAM keeps the canonical form and lists no byte outside RAM. -/
theorem stepKeepsMemoryInvariant : Obligations.StepKeepsMemoryInvariant := by
  rintro s t ⟨hwf, hin⟩ h
  obtain ⟨i, hi⟩ := exec_of_step_next h
  rcases exec_next_mem hi with e | ⟨w, ea, v, _, hend, e⟩ <;> rw [State.Inv, e]
  · exact ⟨hwf, hin⟩
  · exact ⟨wf_writeLE hwf _ _ _, inRam_writeLE hin _ _ _ hend⟩

/-- Settles O20: a store leaves a value in every byte it writes and every other byte as it was. -/
theorem writtenBytesStayWritten : Obligations.WrittenBytesStayWritten := by
  intro s t a h ha
  obtain ⟨i, hi⟩ := exec_of_step_next h
  rcases exec_next_mem hi with e | ⟨w, ea, v, _, _, e⟩ <;> rw [e]
  · exact ha
  · rw [read_writeLE]
    split
    · rfl
    · exact ha

/-- Settles O24: the bytes of a store are those of its access. -/
theorem onlyStoredBytesChange : Obligations.OnlyStoredBytesChange := by
  intro i s t a h ha
  rcases exec_next_mem h with e | ⟨w, ea, v, hacc, _, e⟩ <;> rw [e]
  have hout := ha w ea hacc
  rw [read_writeLE, if_neg (by omega)]

/-! Reset and boot. -/

/-- Settles O17: an empty RAM is canonical and lists no byte. -/
theorem resetHasMemoryInvariant : Obligations.ResetHasMemoryInvariant := ⟨rfl, rfl⟩

/-- Settles O19: the pc is `RESET_PC`'s default, and RAM is empty. -/
theorem resetPcIsZero : Obligations.ResetPcIsZero := ⟨config_resetPc, read_nil⟩

/-- Loading an image inside RAM lists no address outside RAM. -/
theorem inRam_load {m : Memory} {image : List Host.Cell} (h : Memory.inRam m = true) (hi : imageOk image = true) :
    Memory.inRam (Memory.load m image) = true := by
  induction image generalizing m with
  | nil => exact h
  | cons c image ih =>
    have hc : c.1 ≤ ramLast ∧ imageOk image = true := by simpa [imageOk] using hi
    exact ih (inRam_write h hc.1 c.2) hc.2

/-- A byte for which an image gives nothing stays. -/
theorem read_load_of_ne {m : Memory} {image : List Host.Cell} {a : Nat} (h : ∀ c ∈ image, c.1 ≠ a) :
    Memory.read (Memory.load m image) a = Memory.read m a := by
  induction image generalizing m with
  | nil => rfl
  | cons c image ih =>
    obtain ⟨hc, himage⟩ := List.forall_mem_cons.1 h
    rw [Memory.load, ih himage, read_write, if_neg hc.symm]

theorem load_append (m : Memory) (before after : List Host.Cell) :
    Memory.load m (before ++ after) = Memory.load (Memory.load m before) after := by
  induction before generalizing m with
  | nil => rfl
  | cons c before ih => exact ih (m.write c.1 c.2)

/-- A byte holds the last value an image gives it. -/
theorem read_load_last (m : Memory) (before after : List Host.Cell) {a : Nat} (b : Byte) (h : ∀ c ∈ after, c.1 ≠ a) :
    Memory.read (Memory.load m (before ++ (a, b) :: after)) a = some b := by
  rw [load_append, Memory.load, read_load_of_ne h, read_write, if_pos rfl]

/-- Settles O18: loading writes the image's bytes one after the other into an empty RAM. -/
theorem bootHasMemoryInvariant : Obligations.BootHasMemoryInvariant := by
  intro entry regs image hi
  refine ⟨⟨wf_load rfl image, inRam_load rfl hi⟩, ?_⟩
  rintro a b before after rfl hafter
  exact read_load_last [] before after b hafter

/-! Registers and the pc. -/

/-- Settles O23: what completes writes its destination or no register. -/
theorem onlyTheDestinationRegisterChanges : Obligations.OnlyTheDestinationRegisterChanges := by
  intro i s t r h hd
  rcases exec_next h with ⟨_, _, _, p, rfl⟩ | ⟨_, ⟨d, v, hdest, rfl⟩, _⟩ | ⟨_, _, w, ea, v, _, _, _, rfl⟩
  · rfl
  · have hne : r ≠ d := fun e => hd (e ▸ hdest)
    rw [advance_reg, setReg_reg_ne s v hne]
  · rfl

/-- An instruction that is no jump has no target. -/
theorem jumpTargetOf_of_not_isJump {i : Instr} (h : isJump i = false) (s : State) : jumpTargetOf i s = none := by
  cases i with
  | jmp | jmpi | jmpc | jmpic => nomatch h
  | _ => rfl

/-- Settles O22: an instruction that is no jump has no target, so it advances the pc. -/
theorem onlyJumpsLeaveTheSequence : Obligations.OnlyJumpsLeaveTheSequence := fun _ s _ hj h =>
  exec_no_jump (jumpTargetOf_of_not_isJump hj s) h

/-! What an instruction does from another pc. -/

/-- `u` is what `t`, the next state of `s`, becomes when the instruction runs at the pc `p` instead: the same registers
and RAM, and the pc the same target or the advance from `p`. -/
def SameFromPc (s t : State) (p : Word) (u : State) : Prop :=
  u.regs = t.regs ∧ u.mem = t.mem ∧ (u.pc = t.pc ∨ (t.pc = s.pc + 4#32 ∧ u.pc = p + 4#32))

theorem writeBack_setPc {d : Reg} {v : Word} {s t : State} (p : Word) (h : writeBack config d v s = .next t) :
    ∃ u, writeBack config d v (s.setPc p) = .next u ∧ SameFromPc s t p u := by
  rw [writeBack_config, Host.Outcome.next.injEq] at h
  subst h
  exact ⟨_, writeBack_config d v (s.setPc p), rfl, rfl, .inr ⟨rfl, rfl⟩⟩

theorem jumpIf_setPc {v b o : Word} {s t : State} (p : Word) (h : jumpIf config v b o s = .next t) :
    ∃ u, jumpIf config v b o (s.setPc p) = .next u ∧ SameFromPc s t p u := by
  rw [jumpIf_config, Host.Outcome.next.injEq] at h
  subst h
  refine ⟨_, jumpIf_config v b o (s.setPc p), rfl, rfl, ?_⟩
  by_cases hv : v = 0#32
  · simp [hv]
  · simp [hv]

/-- A store tests and writes its own address, whatever the pc. -/
theorem store_setPc {w : Width} {v b o : Word} {s t : State} (p : Word) (h : store config w v b o s = .next t) :
    ∃ u, store config w v b o (s.setPc p) = .next u ∧ SameFromPc s t p u := by
  obtain ⟨hal, hr, rfl⟩ := store_next h
  rcases memWrite_cases (s.setPc p) (b + o) w v with ⟨hm, _⟩ | ⟨_, hout, _⟩ | ⟨_, _, e⟩
  · exact absurd hal hm
  · omega
  · have hu := store_config w v b o (s.setPc p)
    rw [e, orRaise_ok] at hu
    exact ⟨_, hu, rfl, rfl, .inr ⟨rfl, rfl⟩⟩

theorem load_setPc {w : Width} {d : Reg} {b o : Word} {s t : State} (p : Word) (h : load config w d b o s = .next t) :
    ∃ u, load config w d b o (s.setPc p) = .next u ∧ SameFromPc s t p u := by
  obtain ⟨hal, hr, v, hv, rfl⟩ := load_next h
  rcases memRead_cases (s.setPc p) (b + o) w with ⟨hm, _⟩ | ⟨_, hout, _⟩ | ⟨_, _, hn, _⟩ | ⟨_, _, v', hv', e⟩
  · exact absurd hal hm
  · omega
  · exact nomatch hn.symm.trans hv
  · obtain rfl : v' = v := Option.some.inj (hv'.symm.trans hv)
    have hu := load_config w d b o (s.setPc p)
    rw [e, orRaise_ok] at hu
    exact ⟨_, hu, rfl, rfl, .inr ⟨rfl, rfl⟩⟩

/-- A division that completes has a value that no pc changes: `y q` is `quotient` or `remainder` at the pc `q`. -/
theorem division_setPc {y : Word → Except Fault Word} {b q : Word} {d : Reg} {s t : State} (p : Word)
    (hy : ∀ pc, y pc = if b = 0#32 then .error (.divideByZero pc) else .ok q)
    (h : (orRaise (y s.pc) fun v => writeBack config d v s) = .next t) :
    ∃ u, (orRaise (y p) fun v => writeBack config d v (s.setPc p)) = .next u ∧ SameFromPc s t p u := by
  by_cases hb : b = 0#32
  · rw [hy, if_pos hb] at h
    nomatch h
  · rw [hy, if_neg hb] at h ⊢
    exact writeBack_setPc p h

theorem exec_setPc {i : Instr} {s t : State} (p : Word) (h : exec i s = .next t) :
    ∃ u, exec i (s.setPc p) = .next u ∧ SameFromPc s t p u := by
  cases i with
  | jmp b o | jmpi b o =>
    cases h
    exact ⟨_, rfl, rfl, rfl, .inl rfl⟩
  | jmpc b o c | jmpic b o c => exact jumpIf_setPc p h
  | stb a b o | sth a b o | stw a b o | stbi a b o | sthi a b o | stwi a b o => exact store_setPc p h
  | ldb d b o | ldh d b o | ldw d b o | ldbi d b o | ldhi d b o | ldwi d b o => exact load_setPc p h
  | div d a b => exact division_setPc p (fun pc => quotient_config pc (s.reg a) (s.reg b)) h
  | divi d a b => exact division_setPc p (fun pc => quotient_config pc (s.reg a) (arithImm b)) h
  | mod d a b => exact division_setPc p (fun pc => remainder_config pc (s.reg a) (s.reg b)) h
  | modi d a b => exact division_setPc p (fun pc => remainder_config pc (s.reg a) (arithImm b)) h
  | _ => exact writeBack_setPc p h

/-- Settles O25: none of the shapes of an instruction takes the pc into its registers, its RAM or its target. -/
theorem noInstructionReadsThePc : Obligations.NoInstructionReadsThePc := fun _ _ _ p h => exec_setPc p h

/-! Jumps. -/

theorem setsPc_next (s : State) (p : Word) : SetsPc (.next (s.setPc p)) s p :=
  ⟨s.setPc p, rfl, rfl, fun _ => rfl, fun _ => rfl⟩

theorem ofNat_toNat_word (a : Word) : BitVec.ofNat 32 a.toNat = a := by
  rw [BitVec.ofNat_toNat, BitVec.setWidth_eq]

theorem ofNat_toNat_jumpOffset (imm : BitVec 21) : BitVec.ofNat 32 imm.toNat = jumpOffset config imm := by
  rw [jumpOffset_config]
  exact BitVec.ofNat_toNat _ _

/-- Settles O26: the words by the layout of format J; the target is the sum of words, which is the sum of numbers modulo
2^32. -/
theorem jumpSetsPcToBasePlusOffset : Obligations.JumpSetsPcToBasePlusOffset := by
  refine ⟨decodeWord_jmp, decodeWord_jmpi, fun base off s => ?_, fun base imm s => ?_⟩
  · rw [BitVec.ofNat_add, ofNat_toNat_word, ofNat_toNat_word]
    exact setsPc_next s _
  · rw [BitVec.ofNat_add, ofNat_toNat_word, ofNat_toNat_jumpOffset]
    exact setsPc_next s _

theorem jumpIf_setsPc (v b o : Word) (s : State) :
    SetsPc (jumpIf config v b o s) s (if v = 0#32 then s.pc + 4#32 else b + o) := by
  rw [jumpIf_config]
  exact setsPc_next s _

/-- Settles O27: as the jumps, the pc chosen by the control register. -/
theorem conditionalJumpTestsItsControlRegister : Obligations.ConditionalJumpTestsItsControlRegister := by
  refine ⟨decodeWord_jmpc, decodeWord_jmpic, fun base off ctrl s => ?_, fun base ctrl imm s => ?_⟩
  · rw [BitVec.ofNat_add, ofNat_toNat_word, ofNat_toNat_word]
    exact jumpIf_setsPc _ _ _ s
  · rw [BitVec.ofNat_add, ofNat_toNat_word, ofNat_toNat_jumpOffset]
    exact jumpIf_setsPc _ _ _ s

/-- Settles O28: the jump sets the pc to its target, and the next fetch tests it. -/
theorem badJumpTargetFaultsAtTheNextFetch : Obligations.BadJumpTargetFaultsAtTheNextFetch := by
  intro i s target h
  obtain ⟨hmis, hout⟩ := fetchChecksAlignmentThenRange (s.setPc target)
  exact ⟨fun hm => ⟨_, exec_jump h, rfl, hmis hm⟩, fun hal hr => ⟨_, exec_jump h, rfl, hout hal hr⟩⟩

/-- Settles O29: the advance from the last word is the first address outside RAM. -/
theorem runningOffTheEndOfRamFaults : Obligations.RunningOffTheEndOfRamFaults := by
  intro i s t hj hpc h
  have ht : t.pc = 0x00100000#32 := by
    rw [exec_no_jump hj h, hpc]
    rfl
  obtain ⟨_, hout⟩ := fetchChecksAlignmentThenRange t
  rw [ht] at hout
  exact ⟨ht, hout (by decide) (by decide)⟩

end Sys2Proof.Machine

/-! PROOFS. Loads and stores (spec/41_st_ld.md, spec/20_memory.md sections 2, 4 and 9): the words and the answers of the
twelve instructions, and what is read where something was stored. -/

namespace Sys2Proof.Machine

/-! The twelve instructions. -/

/-- Settles O30: the words by the layout of format M, the answers by the access. -/
theorem registerStoresStoreLowBytes : Obligations.RegisterStoresStoreLowBytes :=
  ⟨decodesRegM (m := .stb) rfl fun _ => rfl, decodesRegM (m := .sth) rfl fun _ => rfl,
    decodesRegM (m := .stw) rfl fun _ => rfl,
    fun _ _ _ _ => ⟨exec_store_answers rfl rfl, exec_store_answers rfl rfl, exec_store_answers rfl rfl⟩⟩

/-- Settles O31: as the register forms. -/
theorem immediateStoresStoreLowBytes : Obligations.ImmediateStoresStoreLowBytes :=
  ⟨decodesImmM (m := .stbi) rfl fun _ => rfl, decodesImmM (m := .sthi) rfl fun _ => rfl,
    decodesImmM (m := .stwi) rfl fun _ => rfl,
    fun _ _ _ _ => ⟨exec_store_answers rfl rfl, exec_store_answers rfl rfl, exec_store_answers rfl rfl⟩⟩

/-- Settles O32: as the stores, by the access and the destination. -/
theorem registerLoadsZeroFill : Obligations.RegisterLoadsZeroFill :=
  ⟨decodesRegM (m := .ldb) rfl fun _ => rfl, decodesRegM (m := .ldh) rfl fun _ => rfl,
    decodesRegM (m := .ldw) rfl fun _ => rfl,
    fun _ _ _ _ => ⟨exec_load_answers rfl rfl, exec_load_answers rfl rfl, exec_load_answers rfl rfl⟩⟩

/-- Settles O33: as the register forms. -/
theorem immediateLoadsZeroFill : Obligations.ImmediateLoadsZeroFill :=
  ⟨decodesImmM (m := .ldbi) rfl fun _ => rfl, decodesImmM (m := .ldhi) rfl fun _ => rfl,
    decodesImmM (m := .ldwi) rfl fun _ => rfl,
    fun _ _ _ _ => ⟨exec_load_answers rfl rfl, exec_load_answers rfl rfl, exec_load_answers rfl rfl⟩⟩

/-! A load after a store. -/

/-- The low `n` bytes of a word, taken as a number, are its bytes. -/
theorem byte_of_low (v : Word) {n k : Nat} (hk : k < n) :
    (BitVec.ofNat 32 (v.toNat % 2 ^ (8 * n))).extractLsb' (8 * k) 8 = v.extractLsb' (8 * k) 8 := by
  apply BitVec.eq_of_getLsbD_eq
  intro i hi
  have hlow : 8 * k + i < 8 * n := by omega
  simp only [BitVec.getLsbD_extractLsb', BitVec.getLsbD_ofNat, Nat.testBit_mod_two_pow, hi, hlow, decide_true,
    Bool.true_and, BitVec.testBit_toNat]
  by_cases h32 : 8 * k + i < 32
  · simp [h32]
  · simp [h32, BitVec.getLsbD_of_ge v (8 * k + i) (by omega)]

/-- A store that completes was aligned and in RAM, and its bytes are there. -/
theorem exec_store_next {i : Instr} {s t : State} {w : Width} {ea : Word} {src : Reg} (h : exec i s = .next t)
    (ha : accessOf i s = some (.store, w, ea)) (hs : storedOf i = some src) :
    ea.toNat % w.bytes = 0 ∧ ea.toNat ≤ 0x000FFFFF ∧
      ∀ k, k < w.bytes → Memory.read t.mem (ea.toNat + k) = some ((s.reg src).extractLsb' (8 * k) 8) := by
  obtain ⟨hmis, hout, hstore⟩ := exec_store_answers ha hs
  have hal : ea.toNat % w.bytes = 0 := by_contra fun hm => nomatch (hmis hm).symm.trans h
  have hr : ea.toNat ≤ 0x000FFFFF := by
    by_contra hn
    exact nomatch (hout hal (by omega)).symm.trans h
  obtain ⟨u, hu, hbytes, _⟩ := hstore hal hr
  obtain rfl : u = t := Host.Outcome.next.inj (hu.symm.trans h)
  exact ⟨hal, hr, hbytes⟩

/-- Settles O36: the bytes stored are the bytes of the register's low part, so a load finds that number. -/
theorem storeThenLoadReturnsTheLowBytes : Obligations.StoreThenLoadReturnsTheLowBytes := by
  intro i j s t w ea src dest h ha hs hj hd
  obtain ⟨hal, hr, hbytes⟩ := exec_store_next h ha hs
  obtain ⟨_, _, hload⟩ := exec_load_answers hj hd
  refine hload hal hr _ ⟨fun k hk => ?_, ?_⟩
  · rw [hbytes k hk, byte_of_low _ hk]
  · rw [BitVec.toNat_ofNat]
    exact lt_of_le_of_lt (Nat.mod_le _ _) (Nat.mod_lt _ (by positivity))

/-! Parts of a word in memory. -/

/-- `MemRead` answers the number whose bytes are there. -/
theorem memRead_of_bytes {s : State} {ea u : Word} {w : Width} (hal : ea.toNat % w.bytes = 0)
    (hr : ea.toNat ≤ 0x000FFFFF) (hb : ∀ k, k < w.bytes → Memory.read s.mem (ea.toNat + k) = some (byteOf u k))
    (hu : u.toNat < 2 ^ (8 * w.bytes)) : memRead s ea w = .ok u := by
  rw [memRead, accessFault_none s.pc ea w .load hal hr, readLE_of_bytes _ _ _ u (bytes_le w) hb hu]

/-- The bytes of a part of a word are the word's. -/
theorem byteOf_part (v : Word) {k n j : Nat} (hj : j < n) (hn : n ≤ 4) :
    byteOf ((v.extractLsb' (8 * k) (8 * n)).zeroExtend 32) j = byteOf v (k + j) := by
  apply BitVec.eq_of_getLsbD_eq
  intro i hi
  have hpart : 8 * j + i < 8 * n := by omega
  have hword : 8 * j + i < 32 := by omega
  have hsum : 8 * k + (8 * j + i) = 8 * (k + j) + i := by omega
  simp only [byteOf, BitVec.truncate_eq_setWidth, BitVec.getLsbD_extractLsb', BitVec.getLsbD_setWidth, hi, hpart, hword,
    hsum, decide_true, Bool.true_and]

/-- Where a word lies in memory, each aligned part of it reads as that part (R24). -/
theorem memRead_part {t : State} {a v : Word} (hal : a.toNat % 4 = 0) (hr : a.toNat ≤ 0x000FFFFF)
    (hb : ∀ j, j < 4 → Memory.read t.mem (a.toNat + j) = some (byteOf v j)) (w : Width) (k : Nat)
    (hk : k % w.bytes = 0) (hw : k + w.bytes ≤ 4) :
    memRead t (a + BitVec.ofNat 32 k) w = .ok ((v.extractLsb' (8 * k) (8 * w.bytes)).zeroExtend 32) := by
  have hpos := bytes_pos w
  have haddr : (a + BitVec.ofNat 32 k).toNat = a.toNat + k := by
    rw [BitVec.toNat_add, BitVec.toNat_ofNat]
    omega
  have hdvd : w.bytes ∣ a.toNat :=
    Nat.dvd_trans (by cases w <;> decide) (Nat.dvd_of_mod_eq_zero hal)
  apply memRead_of_bytes
  · rw [haddr]
    exact Nat.mod_eq_zero_of_dvd (Nat.dvd_add hdvd (Nat.dvd_of_mod_eq_zero hk))
  · omega
  · intro j hj
    rw [haddr, byteOf_part v hj (bytes_le w), Nat.add_assoc]
    exact hb (k + j) (by omega)
  · rw [BitVec.zeroExtend_eq_setWidth, BitVec.toNat_setWidth_of_le (by have := bytes_le w; omega)]
    exact BitVec.isLt _

/-- A `MemWrite` of a word that succeeds leaves its four bytes. -/
theorem memWrite_word_ok {s t : State} {a v : Word} (h : memWrite s a .word v = .ok t) :
    a.toNat % 4 = 0 ∧ a.toNat ≤ 0x000FFFFF ∧ ∀ j, j < 4 → Memory.read t.mem (a.toNat + j) = some (byteOf v j) := by
  rcases memWrite_cases s a .word v with ⟨_, e⟩ | ⟨_, _, e⟩ | ⟨hal, hr, e⟩
  · exact nomatch e.symm.trans h
  · exact nomatch e.symm.trans h
  · obtain rfl := Except.ok.inj (e.symm.trans h)
    refine ⟨hal, hr, fun j hj => ?_⟩
    rw [setMem_mem, read_writeLE, if_pos ⟨by omega, by rw [Width.bytes]; omega⟩, Nat.add_sub_cancel_left]

/-- Settles O37: the six reads are aligned parts of the word. -/
theorem mixedWidthReadsSeeTheSameBytes : Obligations.MixedWidthReadsSeeTheSameBytes := by
  intro s t a v h
  obtain ⟨hal, hr, hb⟩ := memWrite_word_ok h
  have part := memRead_part hal hr hb
  have hbyte := part .byte 0 (by decide) (by decide)
  have hhalf := part .half 0 (by decide) (by decide)
  rw [BitVec.add_zero] at hbyte hhalf
  exact ⟨hbyte, part .byte 1 (by decide) (by decide), part .byte 2 (by decide) (by decide),
    part .byte 3 (by decide) (by decide), hhalf, part .half 2 (by decide) (by decide)⟩

/-- The word stored at an address is the word there. -/
theorem readLE_writeLE_word (m : Memory) (a : Nat) (v : Word) :
    Memory.readLE (Memory.writeLE m a 4 v) a 4 = some v := by
  refine readLE_of_bytes _ _ _ v le_rfl (fun k hk => ?_) v.isLt
  rw [read_writeLE, if_pos ⟨by omega, by omega⟩, Nat.add_sub_cancel_left]

/-- Settles O38: the address of the store is the pc of the next step, so the checks of both agree and the fetch reads
the bytes stored. -/
theorem storeIsSeenByTheNextFetch : Obligations.StoreIsSeenByTheNextFetch := by
  intro src base off s t h ha
  obtain ⟨hal, hr, rfl⟩ := store_next (w := .word) (v := s.reg src) (b := s.reg base) (o := s.reg off) h
  rw [ha, Width.bytes] at hal
  rw [ha] at hr
  rw [fetchWord_ok, ha]
  exact ⟨hal, by simp only [advance_pc, setMem_pc, config_pcStep]; omega, readLE_writeLE_word _ _ _⟩

end Sys2Proof.Machine

/-! PROOFS. SETU and constants (spec/43_setu.md R95, R96, spec/30_encoding.md section 6), and the arithmetic group
(spec/44_arithmetic.md). -/

namespace Sys2Proof.Machine

/-! SETU. -/

/-- A word as bit 31, bits 30..25 and bits 24..0. -/
theorem append_bits_setu (x : Word) :
    (x.extractLsb' 31 1 ++ x.extractLsb' 25 6 ++ x.extractLsb' 0 25 : BitVec 32) = x := by
  have hhigh : x.extractLsb' 31 1 ++ x.extractLsb' 25 6 = x.extractLsb' 25 7 :=
    BitVec.extractLsb'_append_extractLsb'_eq_extractLsb' rfl
  rw [hhigh]
  exact BitVec.extractLsb'_append_extractLsb' (len := 25) (w := 7)

/-- A value field shifted to bits 30..25. -/
theorem shiftLeft_25_eq_append (val : BitVec 6) : val.zeroExtend 32 <<< 25 = (0#1 ++ val ++ 0#25 : BitVec 32) := by
  apply BitVec.eq_of_getLsbD_eq
  intro i hi
  simp only [BitVec.zeroExtend_eq_setWidth, BitVec.getLsbD_shiftLeft, BitVec.getLsbD_setWidth, BitVec.getLsbD_append,
    BitVec.getLsbD_zero]
  grind

/-- SETU's value: the mask keeps bit 31 and bits 24..0, and the field fills the bits between. -/
theorem setuValue_eq_append (old : Word) (val : BitVec 6) :
    setuValue old val = (old.extractLsb' 31 1 ++ val ++ old.extractLsb' 0 25 : BitVec 32) := by
  have hmask : (0x81FFFFFF#32 : Word) = BitVec.allOnes 1 ++ 0#6 ++ BitVec.allOnes 25 := rfl
  have hkept : old &&& 0x81FFFFFF#32 = (old.extractLsb' 31 1 ++ 0#6 ++ old.extractLsb' 0 25 : BitVec 32) := by
    conv_lhs => rw [← append_bits_setu old]
    rw [hmask, BitVec.and_append, BitVec.and_append, BitVec.and_allOnes, BitVec.and_allOnes, BitVec.and_zero]
  rw [setuValue, hkept, shiftLeft_25_eq_append, BitVec.or_append, BitVec.or_append, BitVec.or_zero, BitVec.or_zero,
    BitVec.zero_or]

theorem exec_setu_writes (dest : Reg) (val : BitVec 6) (s : State) :
    WritesRegister (exec (.setu dest val) s) s dest (setuValue (s.reg dest) val) :=
  writeBack_writes dest _ s

/-- Settles O40: the words by the layout of format U, the write by what SETU computes. -/
theorem setuWritesBits30To25 : Obligations.SetuWritesBits30To25 := by
  refine ⟨decodeWord_setu, fun dest val s => ⟨?_, (setuValue_eq_append _ _).symm⟩⟩
  rw [← setuValue_eq_append]
  exact exec_setu_writes dest val s

/-! Constants in two steps. -/

/-- What SET or SETN leaves for SETU to complete: bit 31 and bits 24..0 of the value. -/
def setOrSetn (value : Word) : Word :=
  if value.getLsbD 31 then setnValue (value.extractLsb' 0 25) else setValue (value.extractLsb' 0 25)

theorem setOrSetn_bit31 (value : Word) : (setOrSetn value).extractLsb' 31 1 = value.extractLsb' 31 1 := by
  have hvalue : value.extractLsb' 31 1 = BitVec.ofBool (value.getLsbD 31) := by
    apply BitVec.eq_of_getLsbD_eq
    simp
  have hfill (fill : BitVec 7) : (fill ++ value.extractLsb' 0 25 : BitVec 32).extractLsb' 31 1 = fill.extractLsb' 6 1 :=
    BitVec.extractLsb'_append_eq_of_le (by decide)
  rw [hvalue, setOrSetn, setnValue_eq_append, setValue_eq_append]
  cases value.getLsbD 31 with
  | false => exact hfill _
  | true => exact hfill _

theorem setOrSetn_low (value : Word) : (setOrSetn value).extractLsb' 0 25 = value.extractLsb' 0 25 := by
  rw [setOrSetn, setnValue_eq_append, setValue_eq_append]
  split
  · exact BitVec.extractLsb'_append_eq_right
  · exact BitVec.extractLsb'_append_eq_right

/-- SETU completes it: bit 31 and bits 24..0 are there, and bits 30..25 are written. -/
theorem setuValue_setOrSetn (value : Word) : setuValue (setOrSetn value) (value.extractLsb' 25 6) = value := by
  rw [setuValue_eq_append, setOrSetn_bit31, setOrSetn_low]
  exact append_bits_setu value

theorem exec_setOrSetn_writes (value : Word) (dest : Reg) (s : State) :
    WritesRegister
      (exec (if value.getLsbD 31 then .setn dest (value.extractLsb' 0 25) else .set dest (value.extractLsb' 0 25)) s)
      s dest (setOrSetn value) := by
  rw [setOrSetn]
  split
  · exact exec_setn_writes dest _ s
  · exact exec_set_writes dest _ s

/-- Two writes of one register are, from the pc in between, one write of it. -/
theorem WritesRegister.again {out : Result} {s t : State} {dest : Reg} {v v' : Word}
    (h : WritesRegister (.next t) s dest v) (h' : WritesRegister out t dest v') :
    WritesRegister out (s.setPc (s.pc + 4#32)) dest v' := by
  obtain ⟨t', e, _, hregs, hpc, hmem⟩ := h
  obtain rfl : t = t' := Host.Outcome.next.inj e
  obtain ⟨u, rfl, hv', hregs', hpc', hmem'⟩ := h'
  refine ⟨u, rfl, hv', fun r hr => (hregs' r hr).trans (hregs r hr), ?_, fun a => (hmem' a).trans (hmem a)⟩
  rw [hpc', hpc]
  rfl

theorem WritesRegister.exists_next {out : Result} {s : State} {d : Reg} {v : Word} (h : WritesRegister out s d v) :
    ∃ t, out = .next t := by
  obtain ⟨t, ht, _⟩ := h
  exact ⟨t, ht⟩

theorem WritesRegister.reg_eq {s t : State} {d : Reg} {v : Word} (h : WritesRegister (.next t) s d v) :
    t.reg d = v := by
  obtain ⟨t', e, hv, _⟩ := h
  rw [Host.Outcome.next.inj e, hv]

/-- Settles O41: SET or SETN gives bit 31 and bits 24..0, and SETU the six bits between. -/
theorem twoStepsBuildAnyConstant : Obligations.TwoStepsBuildAnyConstant := by
  intro value dest s
  have hset := exec_setOrSetn_writes value dest s
  obtain ⟨t, ht⟩ := hset.exists_next
  rw [ht] at hset
  have hsetu := exec_setu_writes dest (value.extractLsb' 25 6) t
  rw [hset.reg_eq, setuValue_setOrSetn] at hsetu
  obtain ⟨u, hu⟩ := hsetu.exists_next
  rw [hu] at hsetu
  exact ⟨t, u, ht, hu, hset.again hsetu⟩

/-! Sums, differences and products. -/

theorem ofNat_toNat_arithImm (imm : BitVec 19) : BitVec.ofNat 32 imm.toNat = arithImm imm := BitVec.ofNat_toNat _ _

theorem ofInt_sub (x y : Int) : BitVec.ofInt 32 (x - y) = BitVec.ofInt 32 x - BitVec.ofInt 32 y := by
  rw [Int.sub_eq_add_neg, BitVec.ofInt_add, BitVec.ofInt_neg, BitVec.sub_eq_add_neg]

/-- Settles O42: reduction modulo 2^32 respects sums. -/
theorem addIsTheSumModulo : Obligations.AddIsTheSumModulo := by
  refine ⟨decodesRegM (m := .add) rfl fun _ => rfl, decodesImmM (m := .addi) rfl fun _ => rfl,
    fun dest src1 src2 s => ?_, fun dest src imm s => ?_⟩
  · rw [BitVec.ofNat_add, ofNat_toNat_word, ofNat_toNat_word]
    exact writeBack_writes dest _ s
  · rw [BitVec.ofNat_add, ofNat_toNat_word, ofNat_toNat_arithImm]
    exact writeBack_writes dest _ s

/-- Settles O43: reduction modulo 2^32 respects differences of integers. -/
theorem subIsTheDifferenceModulo : Obligations.SubIsTheDifferenceModulo := by
  refine ⟨decodesRegM (m := .sub) rfl fun _ => rfl, decodesImmM (m := .subi) rfl fun _ => rfl,
    fun dest src1 src2 s => ?_, fun dest src imm s => ?_⟩
  · rw [ofInt_sub, BitVec.ofInt_natCast, BitVec.ofInt_natCast, ofNat_toNat_word, ofNat_toNat_word]
    exact writeBack_writes dest _ s
  · rw [ofInt_sub, BitVec.ofInt_natCast, BitVec.ofInt_natCast, ofNat_toNat_word, ofNat_toNat_arithImm]
    exact writeBack_writes dest _ s

/-- Settles O44: reduction modulo 2^32 respects products. -/
theorem mulIsTheLowWordOfTheProduct : Obligations.MulIsTheLowWordOfTheProduct := by
  refine ⟨decodesRegM (m := .mul) rfl fun _ => rfl, decodesImmM (m := .muli) rfl fun _ => rfl,
    fun dest src1 src2 s => ?_, fun dest src imm s => ?_⟩
  · rw [BitVec.ofNat_mul, ofNat_toNat_word, ofNat_toNat_word]
    exact writeBack_writes dest _ s
  · rw [BitVec.ofNat_mul, ofNat_toNat_word, ofNat_toNat_arithImm]
    exact writeBack_writes dest _ s

/-- Settles O45: the signed reading of a word is the word modulo 2^32. -/
theorem signednessDoesNotMatterForAddSubMul : Obligations.SignednessDoesNotMatterForAddSubMul := by
  intro dest src1 src2 s
  rw [BitVec.ofInt_add, ofInt_sub, BitVec.ofInt_mul, BitVec.ofInt_toInt, BitVec.ofInt_toInt]
  exact ⟨writeBack_writes dest _ s, writeBack_writes dest _ s, writeBack_writes dest _ s⟩

/-! Division. -/

/-- Rounding toward zero gives the quotient and the remainder of R103. -/
theorem quotRem_tdiv_tmod (a : Int) {b : Int} (hb : b ≠ 0) : QuotRem a b (a.tdiv b) (a.tmod b) := by
  refine ⟨(Int.tdiv_mul_add_tmod a b).symm, ?_, ?_⟩
  · rw [Int.abs_eq_natAbs, Int.abs_eq_natAbs, Int.natAbs_tmod]
    exact_mod_cast Nat.mod_lt _ (Int.natAbs_pos.2 hb)
  · rcases lt_trichotomy a 0 with hneg | rfl | hpos
    · have hr : 0 ≤ (-a).tmod b := Int.tmod_nonneg b (by omega)
      rw [Int.neg_tmod] at hr
      omega
    · exact .inl (Int.zero_tmod b)
    · have hr : 0 ≤ a.tmod b := Int.tmod_nonneg b (by omega)
      omega

/-- The value of a division with a divisor that is not zero is written: `y` is `quotient` or `remainder`. -/
theorem division_writes {y : Except Fault Word} {b q : Word} {s : State} (d : Reg)
    (hy : y = if b = 0#32 then .error (.divideByZero s.pc) else .ok q) (hb : b ≠ 0#32) :
    WritesRegister (orRaise y fun v => writeBack config d v s) s d q := by
  rw [hy, if_neg hb, orRaise_ok]
  exact writeBack_writes d q s

theorem division_by_zero {y : Except Fault Word} {b q : Word} {s : State} (d : Reg)
    (hy : y = if b = 0#32 then .error (.divideByZero s.pc) else .ok q) (hb : b = 0#32) :
    (orRaise y fun v => writeBack config d v s) = .fault (.divideByZero s.pc) := by
  rw [hy, if_pos hb, orRaise_error]

theorem toInt_ne_zero {b : Word} (h : b ≠ 0#32) : b.toInt ≠ 0 := fun e => h (BitVec.eq_of_toInt_eq e)

/-- Settles O46: the words by the layout of format A, the results by division toward zero. -/
theorem divAndModAreSignedTowardZero : Obligations.DivAndModAreSignedTowardZero := by
  refine ⟨decodesRegM (m := .div) rfl fun _ => rfl, decodesRegM (m := .mod) rfl fun _ => rfl,
    fun dest src1 src2 s hb => ⟨_, _, quotRem_tdiv_tmod _ (toInt_ne_zero hb), ?_, ?_⟩⟩
  · exact division_writes dest (quotient_config _ _ _) hb
  · exact division_writes dest (remainder_config _ _ _) hb

/-- An immediate is below 2^31, so it reads the same signed and unsigned. -/
theorem toInt_arithImm (imm : BitVec 19) : (arithImm imm).toInt = imm.toNat := by
  have hlt := imm.isLt
  have hnat : (arithImm imm).toNat = imm.toNat := BitVec.toNat_setWidth_of_le (by decide)
  rw [BitVec.toInt_eq_toNat_of_lt (by omega), hnat]

theorem arithImm_ne_zero {imm : BitVec 19} (h : imm ≠ 0#19) : arithImm imm ≠ 0#32 := by
  intro e
  have hz := toInt_arithImm imm
  rw [e, BitVec.toInt_zero] at hz
  exact h (BitVec.eq_of_toNat_eq (by simpa using hz.symm))

/-- Settles O47: as the register forms, the divisor the immediate's value. -/
theorem diviAndModiAreSignedTowardZero : Obligations.DiviAndModiAreSignedTowardZero := by
  refine ⟨decodesImmM (m := .divi) rfl fun _ => rfl, decodesImmM (m := .modi) rfl fun _ => rfl,
    fun dest src imm s h => ?_⟩
  have hb := arithImm_ne_zero h
  rw [← toInt_arithImm]
  refine ⟨_, _, quotRem_tdiv_tmod _ (toInt_ne_zero hb), ?_, ?_⟩
  · exact division_writes dest (quotient_config _ _ _) hb
  · exact division_writes dest (remainder_config _ _ _) hb

/-- Settles O48: the zero divisor is tested before anything is divided. -/
theorem zeroDivisorFaults : Obligations.ZeroDivisorFaults := by
  intro dest src1 src2 s
  refine ⟨fun hb => ⟨?_, ?_⟩, ?_, ?_⟩
  · exact division_by_zero dest (quotient_config _ _ _) hb
  · exact division_by_zero dest (remainder_config _ _ _) hb
  · exact division_by_zero dest (quotient_config s.pc (s.reg src1) (arithImm 0#19)) rfl
  · exact division_by_zero dest (remainder_config s.pc (s.reg src1) (arithImm 0#19)) rfl

/-- Settles O49: below 2^31 a word reads the same signed and unsigned, and division toward zero of natural numbers is
their division. -/
theorem signedAndUnsignedDivisionAgreeOnSmallOperands : Obligations.SignedAndUnsignedDivisionAgreeOnSmallOperands := by
  intro pc a b hb ha hlt
  have hai : a.toInt = a.toNat := BitVec.toInt_eq_toNat_of_lt (by omega)
  have hbi : b.toInt = b.toNat := BitVec.toInt_eq_toNat_of_lt (by omega)
  rw [quotient_config, remainder_config, if_neg hb, if_neg hb, hai, hbi, ← Int.ofNat_tdiv, ← Int.ofNat_tmod,
    BitVec.ofInt_natCast, BitVec.ofInt_natCast]
  simp [quotient, remainder, hb]

/-- A division that completes has a divisor that is not zero, and leaves its value in the destination. -/
theorem division_next {y : Except Fault Word} {b q : Word} {s t : State} {d : Reg}
    (hy : y = if b = 0#32 then .error (.divideByZero s.pc) else .ok q)
    (h : (orRaise y fun v => writeBack config d v s) = .next t) : b ≠ 0#32 ∧ t.reg d = q := by
  have hb : b ≠ 0#32 := fun hb => nomatch (division_by_zero d hy hb).symm.trans h
  have hw := division_writes d hy hb
  rw [h] at hw
  exact ⟨hb, hw.reg_eq⟩

/-- Settles O50: the identity of the integers, reduced modulo 2^32. -/
theorem quotientAndRemainderRebuildTheDividend : Obligations.QuotientAndRemainderRebuildTheDividend := by
  intro d e src1 src2 s t u hdiv hmod
  obtain ⟨hb, hq⟩ := division_next (d := d) (quotient_config s.pc (s.reg src1) (s.reg src2)) hdiv
  obtain ⟨_, hr⟩ := division_next (d := e) (remainder_config s.pc (s.reg src1) (s.reg src2)) hmod
  obtain ⟨hsum, _⟩ := quotRem_tdiv_tmod (s.reg src1).toInt (toInt_ne_zero hb)
  have hword := congrArg (BitVec.ofInt 32) hsum
  rw [BitVec.ofInt_add, BitVec.ofInt_mul, BitVec.ofInt_toInt, BitVec.ofInt_toInt] at hword
  rw [hq, hr, ← hword]

end Sys2Proof.Machine

/-! PROOFS. The bitwise group's register forms (spec/45_bitwise.md), the shift group's instructions (spec/46_shift.md)
and the idioms of spec/30_encoding.md section 6. -/

namespace Sys2Proof.Machine

/-- Settles O51: F is outside the rows' masks, and the operations act on each bit alone. -/
theorem bitwiseRegisterFormsCombineBits : Obligations.BitwiseRegisterFormsCombineBits := by
  refine ⟨decodesRegM (m := .and) rfl fun _ => rfl, decodesRegM (m := .and) rfl fun _ => rfl,
    decodesRegM (m := .or) rfl fun _ => rfl, decodesRegM (m := .or) rfl fun _ => rfl,
    decodesRegM (m := .xor) rfl fun _ => rfl, decodesRegM (m := .xor) rfl fun _ => rfl, fun dest src1 src2 s => ?_⟩
  refine ⟨⟨_, writeBack_writes dest _ s, fun k => ?_⟩, ⟨_, writeBack_writes dest _ s, fun k => ?_⟩,
    ⟨_, writeBack_writes dest _ s, fun k => ?_⟩⟩
  · exact BitVec.getLsbD_and
  · exact BitVec.getLsbD_or
  · exact BitVec.getLsbD_xor

/-! Shifts and rotates. -/

/-- Settles O54: the words by the layout of format H, the writes by the operations' specifications. -/
theorem registerShiftsZeroFill : Obligations.RegisterShiftsZeroFill := by
  refine ⟨decodesRegH (m := .bsr) rfl rfl fun _ => rfl, decodesRegH (m := .bsl) rfl rfl fun _ => rfl,
    fun dest src amount s => ?_⟩
  rw [← lowFive_eq]
  exact ⟨⟨_, shiftRight_spec _ _, writeBack_writes dest _ s⟩, ⟨_, shiftLeft_spec _ _, writeBack_writes dest _ s⟩⟩

/-- Settles O55: as the register forms, the amount the immediate's value. -/
theorem immediateShiftsZeroFill : Obligations.ImmediateShiftsZeroFill :=
  ⟨decodesImmH (m := .bsri) rfl rfl fun _ => rfl, decodesImmH (m := .bsli) rfl rfl fun _ => rfl,
    fun dest _ _ s => ⟨⟨_, shiftRight_spec _ _, writeBack_writes dest _ s⟩,
      ⟨_, shiftLeft_spec _ _, writeBack_writes dest _ s⟩⟩⟩

/-- Settles O56: as the shifts, by the rotates' specifications. -/
theorem registerRotatesWrap : Obligations.RegisterRotatesWrap := by
  refine ⟨decodesRegH (m := .bsrr) rfl rfl fun _ => rfl, decodesRegH (m := .bslr) rfl rfl fun _ => rfl,
    fun dest src amount s => ?_⟩
  have hn : lowFive (s.reg amount) ≤ 31 := Nat.le_of_lt_succ (lowFive_lt _)
  rw [← lowFive_eq]
  exact ⟨⟨_, rotateRight_spec _ hn, writeBack_writes dest _ s⟩, ⟨_, rotateLeft_spec _ hn, writeBack_writes dest _ s⟩⟩

theorem shiftImm_le (imm : BitVec 5) : shiftImm imm ≤ 31 := Nat.le_of_lt_succ imm.isLt

/-- Settles O57: as the register forms, the amount the immediate's value. -/
theorem immediateRotatesWrap : Obligations.ImmediateRotatesWrap :=
  ⟨decodesImmH (m := .bsrri) rfl rfl fun _ => rfl, decodesImmH (m := .bslri) rfl rfl fun _ => rfl,
    fun dest _ imm s => ⟨⟨_, rotateRight_spec _ (shiftImm_le imm), writeBack_writes dest _ s⟩,
      ⟨_, rotateLeft_spec _ (shiftImm_le imm), writeBack_writes dest _ s⟩⟩⟩

/-- What a rotate to the right moved down, the rotate to the left by the same amount moves back. -/
theorem rotateLeft_rotateRight (a : Word) {n : Nat} (hn : n ≤ 31) : rotateLeft (rotateRight a n) n = a := by
  apply BitVec.eq_of_getLsbD_eq
  intro k hk
  have source : ((k + 32 - n) % 32 + n) % 32 = k := by omega
  rw [rotateLeft_spec _ hn k hk, rotateRight_spec a hn _ (Nat.mod_lt _ (by decide)), source]

/-- The negated 5-bit immediate is the complement to 32. -/
theorem shiftImm_neg (imm : BitVec 5) : shiftImm (-imm) = (32 - shiftImm imm) % 32 := BitVec.toNat_neg imm

/-- Settles O58: the first law by the indices of the bits, the second by a rotate to the right as one to the left. -/
theorem rotatesUndoOneAnother : Obligations.RotatesUndoOneAnother := by
  intro dest src imm s t u
  have hn := shiftImm_le imm
  refine ⟨fun hr hl => ?_, ?_⟩
  · have hright : t.reg dest = rotateRight (s.reg src) (shiftImm imm) := reg_of_writeBack_next hr
    have hleft : u.reg dest = rotateLeft (t.reg dest) (shiftImm imm) := reg_of_writeBack_next hl
    rw [hleft, hright, rotateLeft_rotateRight _ hn]
  · have hval : rotateRight (s.reg src) (shiftImm imm) = rotateLeft (s.reg src) (shiftImm (-imm)) := by
      rw [shiftImm_neg, rotateRight_eq_rotateLeft _ hn]
    exact congrArg (fun v => writeBack config dest v s) hval

/-! Idioms. -/

/-- Writing a register with what it holds changes the pc alone. -/
theorem WritesRegister.setsPc {out : Result} {s : State} {r : Reg} (h : WritesRegister out s r (s.reg r)) :
    SetsPc out s (s.pc + 4#32) := by
  obtain ⟨t, ht, hv, hregs, hpc, hmem⟩ := h
  refine ⟨t, ht, hpc, fun q => ?_, hmem⟩
  by_cases hq : q = r
  · rw [hq, hv]
  · exact hregs q hq

/-- ORI with 0 copies a register. -/
theorem exec_ori_zero (dest src : Reg) (s : State) :
    WritesRegister (exec (.ori dest src 0#19) s) s dest (s.reg src) := by
  have hzero : s.reg src ||| bitImm 0#19 = s.reg src := BitVec.or_zero
  have h : WritesRegister (exec (.ori dest src 0#19) s) s dest (s.reg src ||| bitImm 0#19) := writeBack_writes dest _ s
  rwa [hzero] at h

/-- XORF with all ones, which it extends with ones, complements a register. -/
theorem exec_xorf_ones (dest src : Reg) (s : State) :
    WritesRegister (exec (.xorf dest src 0x7FFFF#19) s) s dest (~~~s.reg src) := by
  have hones : s.reg src ^^^ bitImmFilled 0x7FFFF#19 = ~~~s.reg src := BitVec.xor_allOnes
  have h : WritesRegister (exec (.xorf dest src 0x7FFFF#19) s) s dest (s.reg src ^^^ bitImmFilled 0x7FFFF#19) :=
    writeBack_writes dest _ s
  rwa [hones] at h

/-- JMPI through a register that holds 0 goes to its immediate. -/
theorem exec_jmpi_absolute {r : Reg} {s : State} (target : BitVec 21) (h : s.reg r = 0#32) :
    exec (.jmpi r target) s = .next (s.setPc (target.zeroExtend 32)) :=
  exec_jump (by rw [jumpTargetOf, h, BitVec.zero_add])

/-- Settles O59: each idiom by the instructions it is made of. -/
theorem idiomsDoWhatTheyAreFor : Obligations.IdiomsDoWhatTheyAreFor := by
  refine ⟨fun r s => (exec_ori_zero r r s).setsPc, exec_ori_zero, exec_xorf_ones, fun r target s => ?_,
    fun r target s hr hpc => ?_⟩
  · have hset := exec_set_writes r 0#25 s
    obtain ⟨t, ht⟩ := hset.exists_next
    rw [ht] at hset
    exact ⟨t, _, ht, exec_jmpi_absolute target hset.reg_eq, rfl⟩
  · rw [exec_jmpi_absolute target hr, ← hpc]
    rfl

end Sys2Proof.Machine
